-- ==== Sys2Proof/Word.lean ====
section
/-! DEFINITION. The engine's plain data types: words, bytes, register indices, CSR addresses and access widths
(`00_scope.md` R8, R10; `20_memory.md` R66). -/

namespace Sys2Proof

/-- A 32-bit register, address or datum (`u32` of R10). Arithmetic wraps modulo 2^32. -/
abbrev Word := BitVec 32

/-- One byte of memory. -/
abbrev Byte := BitVec 8

/-- A general register number, 5 bits (R30). -/
abbrev RegIdx := BitVec 5

/-- A CSR address, 12 bits (R38). -/
abbrev CsrAddr := BitVec 12

/-- The three access widths (R66). -/
inductive Width where
  | byte
  | half
  | word
  deriving DecidableEq, Repr

/-- How many bytes an access of this width moves (R66). -/
def Width.bytes : Width → Nat
  | .byte => 1
  | .half => 2
  | .word => 4

end Sys2Proof
end

