-- ==== Sys2Proof/Machine/Flags.lean ====
section
/-! DEFINITION. Comparisons. The engine has no flags and no condition codes (`10_state.md` R34): a branch or a
set-if-less instruction compares two words directly (`40_integer_alu.md` R130, `43_control_transfer.md` R210). -/

namespace Sys2Proof.Machine

/-- `s(a) < s(b)` (`00_scope.md` R10). -/
def ltS (a b : Word) : Bool := decide (a.toInt < b.toInt)

/-- `u(a) < u(b)` (`00_scope.md` R10). -/
def ltU (a b : Word) : Bool := decide (a.toNat < b.toNat)

/-- The result of a set-if-less instruction: 1 or 0 (R134). -/
def flagWord (c : Bool) : Word := if c then 1#32 else 0#32

end Sys2Proof.Machine
end

