-- ==== Sys2Proof/Decode.lean ====
section
/-! DEFINITION. The decoder and the encoder: the ordered pattern table (`30_encoding.md` R92 to R95), the fields of
each format (R91, R96 to R104), decoding of a word and of bytes, and the words of an instruction. -/

namespace Sys2Proof

/-! ## Fields of an instruction word (R91) -/

/-- `opcode`, `inst[6:0]`. -/
def opcodeOf (w : Word) : BitVec 7 := w.extractLsb' 0 7

/-- `rd`, `inst[11:7]` (R96). -/
def rdOf (w : Word) : RegIdx := w.extractLsb' 7 5

/-- `funct3`, `inst[14:12]`. -/
def funct3Of (w : Word) : BitVec 3 := w.extractLsb' 12 3

/-- `rs1`, `inst[19:15]`. -/
def rs1Of (w : Word) : RegIdx := w.extractLsb' 15 5

/-- `rs2`, `inst[24:20]`; in format SHIFT the shift amount (R103). -/
def rs2Of (w : Word) : RegIdx := w.extractLsb' 20 5

/-- `funct7`, `inst[31:25]`. -/
def funct7Of (w : Word) : BitVec 7 := w.extractLsb' 25 7

/-- Format I: `inst[31:20]`, an immediate or a CSR address (R97). -/
def immIOf (w : Word) : BitVec 12 := w.extractLsb' 20 12

/-- Format U: `inst[31:12]` (R98). -/
def immUOf (w : Word) : BitVec 20 := w.extractLsb' 12 20

/-- Format S: `[inst[31:25], inst[11:7]]` (R99). -/
def immSOf (w : Word) : BitVec 12 := w.extractLsb' 25 7 ++ w.extractLsb' 7 5

/-- Format J: `[inst[31], inst[19:12], inst[20], inst[30:21], 0]` (R100). -/
def immJOf (w : Word) : BitVec 21 :=
  w.extractLsb' 31 1 ++ w.extractLsb' 12 8 ++ w.extractLsb' 20 1 ++ w.extractLsb' 21 10 ++ 0#1

/-- Format B: `[inst[31], inst[7], inst[30:25], inst[11:8], 0]` (R102). -/
def immBOf (w : Word) : BitVec 13 :=
  w.extractLsb' 31 1 ++ w.extractLsb' 7 1 ++ w.extractLsb' 25 6 ++ w.extractLsb' 8 4 ++ 0#1

/-! ## The pattern table (R92 to R95) -/

/-- A row's operand format (R92) with the instruction its operands make. `csr` is format I read with a CSR address
(R97); `n` has no operand (R104). -/
inductive Shape where
  | u (make : RegIdx → BitVec 20 → Instr)
  | j (make : RegIdx → BitVec 21 → Instr)
  | i (make : RegIdx → RegIdx → BitVec 12 → Instr)
  | csr (make : RegIdx → CsrAddr → RegIdx → Instr)
  | s (make : RegIdx → RegIdx → BitVec 12 → Instr)
  | b (make : RegIdx → RegIdx → BitVec 13 → Instr)
  | r (make : RegIdx → RegIdx → RegIdx → Instr)
  | shift (make : RegIdx → RegIdx → BitVec 5 → Instr)
  | n (instr : Instr)
  | inv

/-- The operand extractor: the instruction a row's format reads from a word (R96 to R104). -/
def Shape.read (w : Word) : Shape → Instr
  | .u make => make (rdOf w) (immUOf w)
  | .j make => make (rdOf w) (immJOf w)
  | .i make => make (rdOf w) (rs1Of w) (immIOf w)
  | .csr make => make (rdOf w) (immIOf w) (rs1Of w)
  | .s make => make (rs2Of w) (rs1Of w) (immSOf w)
  | .b make => make (rs1Of w) (rs2Of w) (immBOf w)
  | .r make => make (rdOf w) (rs1Of w) (rs2Of w)
  | .shift make => make (rdOf w) (rs1Of w) (rs2Of w)
  | .n instr => instr
  | .inv => .inv w

/-- A row: its mnemonic, its pattern string (R92), the mask and the fixed bits of that pattern (R93), its format. -/
structure Row where
  mnemonic : String
  pattern : String
  mask : Word
  fixed : Word
  shape : Shape

/-- The mask of a pattern: 1 at every `0` or `1`, 0 at every `?`; spaces are ignored (R92, R93). -/
def patternMask (p : String) : Word :=
  p.toList.foldl
    (fun acc c => if c = ' ' then acc else if c = '?' then acc <<< 1 else (acc <<< 1) ||| 1#32) 0#32

/-- The fixed bits of a pattern: 1 at every `1` (R93). -/
def patternFixed (p : String) : Word :=
  p.toList.foldl
    (fun acc c => if c = ' ' then acc else if c = '1' then (acc <<< 1) ||| 1#32 else acc <<< 1) 0#32

/-- A word matches a row: `(w & mask) == match` (R93). -/
def Row.hits (r : Row) (w : Word) : Bool := w &&& r.mask == r.fixed

/-- Rows of `opcode_table.json`: LUI, AUIPC, JAL, JALR. -/
def upperAndJumpRows : List Row :=
  [ ⟨"lui", "??????? ????? ????? ??? ????? 0110111", 0x0000007f#32, 0x00000037#32, .u .lui⟩
  , ⟨"auipc", "??????? ????? ????? ??? ????? 0010111", 0x0000007f#32, 0x00000017#32, .u .auipc⟩
  , ⟨"jal", "??????? ????? ????? ??? ????? 1101111", 0x0000007f#32, 0x0000006f#32, .j .jal⟩
  , ⟨"jalr", "??????? ????? ????? 000 ????? 1100111", 0x0000707f#32, 0x00000067#32, .i .jalr⟩ ]

/-- Rows of `opcode_table.json`: the branches. -/
def branchRows : List Row :=
  [ ⟨"beq", "??????? ????? ????? 000 ????? 1100011", 0x0000707f#32, 0x00000063#32, .b .beq⟩
  , ⟨"bne", "??????? ????? ????? 001 ????? 1100011", 0x0000707f#32, 0x00001063#32, .b .bne⟩
  , ⟨"blt", "??????? ????? ????? 100 ????? 1100011", 0x0000707f#32, 0x00004063#32, .b .blt⟩
  , ⟨"bge", "??????? ????? ????? 101 ????? 1100011", 0x0000707f#32, 0x00005063#32, .b .bge⟩
  , ⟨"bltu", "??????? ????? ????? 110 ????? 1100011", 0x0000707f#32, 0x00006063#32, .b .bltu⟩
  , ⟨"bgeu", "??????? ????? ????? 111 ????? 1100011", 0x0000707f#32, 0x00007063#32, .b .bgeu⟩ ]

/-- Rows of `opcode_table.json`: the loads. -/
def loadRows : List Row :=
  [ ⟨"lb", "??????? ????? ????? 000 ????? 0000011", 0x0000707f#32, 0x00000003#32, .i .lb⟩
  , ⟨"lh", "??????? ????? ????? 001 ????? 0000011", 0x0000707f#32, 0x00001003#32, .i .lh⟩
  , ⟨"lw", "??????? ????? ????? 010 ????? 0000011", 0x0000707f#32, 0x00002003#32, .i .lw⟩
  , ⟨"lbu", "??????? ????? ????? 100 ????? 0000011", 0x0000707f#32, 0x00004003#32, .i .lbu⟩
  , ⟨"lhu", "??????? ????? ????? 101 ????? 0000011", 0x0000707f#32, 0x00005003#32, .i .lhu⟩ ]

/-- Rows of `opcode_table.json`: the stores. -/
def storeRows : List Row :=
  [ ⟨"sb", "??????? ????? ????? 000 ????? 0100011", 0x0000707f#32, 0x00000023#32, .s .sb⟩
  , ⟨"sh", "??????? ????? ????? 001 ????? 0100011", 0x0000707f#32, 0x00001023#32, .s .sh⟩
  , ⟨"sw", "??????? ????? ????? 010 ????? 0100011", 0x0000707f#32, 0x00002023#32, .s .sw⟩ ]

/-- Rows of `opcode_table.json`: ALU with an immediate. -/
def immediateRows : List Row :=
  [ ⟨"addi", "??????? ????? ????? 000 ????? 0010011", 0x0000707f#32, 0x00000013#32, .i .addi⟩
  , ⟨"slti", "??????? ????? ????? 010 ????? 0010011", 0x0000707f#32, 0x00002013#32, .i .slti⟩
  , ⟨"sltiu", "??????? ????? ????? 011 ????? 0010011", 0x0000707f#32, 0x00003013#32, .i .sltiu⟩
  , ⟨"xori", "??????? ????? ????? 100 ????? 0010011", 0x0000707f#32, 0x00004013#32, .i .xori⟩
  , ⟨"ori", "??????? ????? ????? 110 ????? 0010011", 0x0000707f#32, 0x00006013#32, .i .ori⟩
  , ⟨"andi", "??????? ????? ????? 111 ????? 0010011", 0x0000707f#32, 0x00007013#32, .i .andi⟩ ]

/-- Rows of `opcode_table.json`: shifts by an immediate. -/
def shiftRows : List Row :=
  [ ⟨"slli", "0000000 ????? ????? 001 ????? 0010011", 0xfe00707f#32, 0x00001013#32, .shift .slli⟩
  , ⟨"srli", "0000000 ????? ????? 101 ????? 0010011", 0xfe00707f#32, 0x00005013#32, .shift .srli⟩
  , ⟨"srai", "0100000 ????? ????? 101 ????? 0010011", 0xfe00707f#32, 0x40005013#32, .shift .srai⟩ ]

/-- Rows of `opcode_table.json`: ALU with two registers. -/
def registerRows : List Row :=
  [ ⟨"add", "0000000 ????? ????? 000 ????? 0110011", 0xfe00707f#32, 0x00000033#32, .r .add⟩
  , ⟨"sub", "0100000 ????? ????? 000 ????? 0110011", 0xfe00707f#32, 0x40000033#32, .r .sub⟩
  , ⟨"sll", "0000000 ????? ????? 001 ????? 0110011", 0xfe00707f#32, 0x00001033#32, .r .sll⟩
  , ⟨"slt", "0000000 ????? ????? 010 ????? 0110011", 0xfe00707f#32, 0x00002033#32, .r .slt⟩
  , ⟨"sltu", "0000000 ????? ????? 011 ????? 0110011", 0xfe00707f#32, 0x00003033#32, .r .sltu⟩
  , ⟨"xor", "0000000 ????? ????? 100 ????? 0110011", 0xfe00707f#32, 0x00004033#32, .r .xor⟩
  , ⟨"srl", "0000000 ????? ????? 101 ????? 0110011", 0xfe00707f#32, 0x00005033#32, .r .srl⟩
  , ⟨"sra", "0100000 ????? ????? 101 ????? 0110011", 0xfe00707f#32, 0x40005033#32, .r .sra⟩
  , ⟨"or", "0000000 ????? ????? 110 ????? 0110011", 0xfe00707f#32, 0x00006033#32, .r .or⟩
  , ⟨"and", "0000000 ????? ????? 111 ????? 0110011", 0xfe00707f#32, 0x00007033#32, .r .and⟩ ]

/-- Rows of `opcode_table.json`: RV32M. -/
def mulDivRows : List Row :=
  [ ⟨"mul", "0000001 ????? ????? 000 ????? 0110011", 0xfe00707f#32, 0x02000033#32, .r .mul⟩
  , ⟨"mulh", "0000001 ????? ????? 001 ????? 0110011", 0xfe00707f#32, 0x02001033#32, .r .mulh⟩
  , ⟨"mulhsu", "0000001 ????? ????? 010 ????? 0110011", 0xfe00707f#32, 0x02002033#32, .r .mulhsu⟩
  , ⟨"mulhu", "0000001 ????? ????? 011 ????? 0110011", 0xfe00707f#32, 0x02003033#32, .r .mulhu⟩
  , ⟨"div", "0000001 ????? ????? 100 ????? 0110011", 0xfe00707f#32, 0x02004033#32, .r .div⟩
  , ⟨"divu", "0000001 ????? ????? 101 ????? 0110011", 0xfe00707f#32, 0x02005033#32, .r .divu⟩
  , ⟨"rem", "0000001 ????? ????? 110 ????? 0110011", 0xfe00707f#32, 0x02006033#32, .r .rem⟩
  , ⟨"remu", "0000001 ????? ????? 111 ????? 0110011", 0xfe00707f#32, 0x02007033#32, .r .remu⟩ ]

/-- Rows of `opcode_table.json`: system and CSR. -/
def systemRows : List Row :=
  [ ⟨"ecall", "0000000 00000 00000 000 00000 1110011", 0xffffffff#32, 0x00000073#32, .n .ecall⟩
  , ⟨"ebreak", "0000000 00001 00000 000 00000 1110011", 0xffffffff#32, 0x00100073#32, .n .ebreak⟩
  , ⟨"mret", "0011000 00010 00000 000 00000 1110011", 0xffffffff#32, 0x30200073#32, .n .mret⟩
  , ⟨"csrrw", "??????? ????? ????? 001 ????? 1110011", 0x0000707f#32, 0x00001073#32, .csr .csrrw⟩
  , ⟨"csrrs", "??????? ????? ????? 010 ????? 1110011", 0x0000707f#32, 0x00002073#32, .csr .csrrs⟩ ]

/-- The 50 rows before the catch-all, in the table's order (R94, R95). -/
def instrRows : List Row :=
  upperAndJumpRows ++ branchRows ++ loadRows ++ storeRows ++ immediateRows ++ shiftRows ++ registerRows ++ mulDivRows ++ systemRows

/-- The catch-all row, last in the table (R94, `44_system_csr.md` R245). -/
def invRow : Row :=
  ⟨"inv", "??????? ????? ????? ??? ????? ???????", 0x00000000#32, 0x00000000#32, .inv⟩

/-- The whole table, in order, the catch-all last (R94). -/
def table : List Row := instrRows ++ [invRow]

/-- Decoding a word: the first row that matches, read by its format (R94, R115). It cannot fail; `inv` stands for
every word that matches no row (R106). -/
def decodeWord (w : Word) : Instr :=
  match table.find? (fun r => r.hits w) with
  | some r => r.shape.read w
  | none => .inv w

/-! ## Decoding bytes (R90) -/

/-- Why bytes hold no instruction: every instruction has four (R90). -/
inductive DecodeError where
  | tooShort (count : Nat)
  deriving DecidableEq, Repr

/-- Decoding bytes, lowest address first: `inst = [M[pc+3], M[pc+2], M[pc+1], M[pc]]` (R90). The rest of the bytes is
returned with the instruction. -/
def decode : List Byte → Except DecodeError (Instr × List Byte)
  | b0 :: b1 :: b2 :: b3 :: rest => .ok (decodeWord (b3 ++ b2 ++ b1 ++ b0), rest)
  | bytes => .error (.tooShort bytes.length)

/-- The four bytes of a word, lowest address first (R90). -/
def wordBytes (w : Word) : List Byte :=
  [w.extractLsb' 0 8, w.extractLsb' 8 8, w.extractLsb' 16 8, w.extractLsb' 24 8]

/-- The bytes of an instruction whose low `nbits` bits are `w` and whose other bits are 0, as the table numbers them. -/
def tableBytes (nbits w : Nat) : List Byte := wordBytes (BitVec.ofNat 32 (w % 2 ^ nbits))

/-- What the decoder reads from those bytes (log 9). -/
def decodeTableWord (nbits w : Nat) : Option Instr :=
  match decode (tableBytes nbits w) with
  | .ok (i, _) => some i
  | .error _ => none

/-! ## The encoder (R91, R95) -/

/-- Formats R and SHIFT (R91). -/
def encodeR (f7 : BitVec 7) (rs2 rs1 : RegIdx) (f3 : BitVec 3) (rd : RegIdx) (op : BitVec 7) : Word :=
  f7 ++ rs2 ++ rs1 ++ f3 ++ rd ++ op

/-- Format I (R91, R97). -/
def encodeI (imm : BitVec 12) (rs1 : RegIdx) (f3 : BitVec 3) (rd : RegIdx) (op : BitVec 7) : Word :=
  imm ++ rs1 ++ f3 ++ rd ++ op

/-- Format S (R91, R99). -/
def encodeS (imm : BitVec 12) (rs2 rs1 : RegIdx) (f3 : BitVec 3) (op : BitVec 7) : Word :=
  imm.extractLsb' 5 7 ++ rs2 ++ rs1 ++ f3 ++ imm.extractLsb' 0 5 ++ op

/-- Format B (R91, R102). Offset bit 0 is not encoded. -/
def encodeB (off : BitVec 13) (rs2 rs1 : RegIdx) (f3 : BitVec 3) (op : BitVec 7) : Word :=
  off.extractLsb' 12 1 ++ off.extractLsb' 5 6 ++ rs2 ++ rs1 ++ f3 ++ off.extractLsb' 1 4 ++ off.extractLsb' 11 1 ++ op

/-- Format U (R91, R98). -/
def encodeU (imm : BitVec 20) (rd : RegIdx) (op : BitVec 7) : Word := imm ++ rd ++ op

/-- Format J (R91, R100). Offset bit 0 is not encoded. -/
def encodeJ (off : BitVec 21) (rd : RegIdx) (op : BitVec 7) : Word :=
  off.extractLsb' 20 1 ++ off.extractLsb' 1 10 ++ off.extractLsb' 11 1 ++ off.extractLsb' 12 8 ++ rd ++ op

/-- The word of an instruction (R95). -/
def encode : Instr → Word
  | .lui rd imm => encodeU imm rd 0b0110111#7
  | .auipc rd imm => encodeU imm rd 0b0010111#7
  | .jal rd off => encodeJ off rd 0b1101111#7
  | .jalr rd rs1 imm => encodeI imm rs1 0b000#3 rd 0b1100111#7
  | .beq rs1 rs2 off => encodeB off rs2 rs1 0b000#3 0b1100011#7
  | .bne rs1 rs2 off => encodeB off rs2 rs1 0b001#3 0b1100011#7
  | .blt rs1 rs2 off => encodeB off rs2 rs1 0b100#3 0b1100011#7
  | .bge rs1 rs2 off => encodeB off rs2 rs1 0b101#3 0b1100011#7
  | .bltu rs1 rs2 off => encodeB off rs2 rs1 0b110#3 0b1100011#7
  | .bgeu rs1 rs2 off => encodeB off rs2 rs1 0b111#3 0b1100011#7
  | .lb rd rs1 imm => encodeI imm rs1 0b000#3 rd 0b0000011#7
  | .lh rd rs1 imm => encodeI imm rs1 0b001#3 rd 0b0000011#7
  | .lw rd rs1 imm => encodeI imm rs1 0b010#3 rd 0b0000011#7
  | .lbu rd rs1 imm => encodeI imm rs1 0b100#3 rd 0b0000011#7
  | .lhu rd rs1 imm => encodeI imm rs1 0b101#3 rd 0b0000011#7
  | .sb rs2 rs1 imm => encodeS imm rs2 rs1 0b000#3 0b0100011#7
  | .sh rs2 rs1 imm => encodeS imm rs2 rs1 0b001#3 0b0100011#7
  | .sw rs2 rs1 imm => encodeS imm rs2 rs1 0b010#3 0b0100011#7
  | .addi rd rs1 imm => encodeI imm rs1 0b000#3 rd 0b0010011#7
  | .slti rd rs1 imm => encodeI imm rs1 0b010#3 rd 0b0010011#7
  | .sltiu rd rs1 imm => encodeI imm rs1 0b011#3 rd 0b0010011#7
  | .xori rd rs1 imm => encodeI imm rs1 0b100#3 rd 0b0010011#7
  | .ori rd rs1 imm => encodeI imm rs1 0b110#3 rd 0b0010011#7
  | .andi rd rs1 imm => encodeI imm rs1 0b111#3 rd 0b0010011#7
  | .slli rd rs1 shamt => encodeR 0b0000000#7 shamt rs1 0b001#3 rd 0b0010011#7
  | .srli rd rs1 shamt => encodeR 0b0000000#7 shamt rs1 0b101#3 rd 0b0010011#7
  | .srai rd rs1 shamt => encodeR 0b0100000#7 shamt rs1 0b101#3 rd 0b0010011#7
  | .add rd rs1 rs2 => encodeR 0b0000000#7 rs2 rs1 0b000#3 rd 0b0110011#7
  | .sub rd rs1 rs2 => encodeR 0b0100000#7 rs2 rs1 0b000#3 rd 0b0110011#7
  | .sll rd rs1 rs2 => encodeR 0b0000000#7 rs2 rs1 0b001#3 rd 0b0110011#7
  | .slt rd rs1 rs2 => encodeR 0b0000000#7 rs2 rs1 0b010#3 rd 0b0110011#7
  | .sltu rd rs1 rs2 => encodeR 0b0000000#7 rs2 rs1 0b011#3 rd 0b0110011#7
  | .xor rd rs1 rs2 => encodeR 0b0000000#7 rs2 rs1 0b100#3 rd 0b0110011#7
  | .srl rd rs1 rs2 => encodeR 0b0000000#7 rs2 rs1 0b101#3 rd 0b0110011#7
  | .sra rd rs1 rs2 => encodeR 0b0100000#7 rs2 rs1 0b101#3 rd 0b0110011#7
  | .or rd rs1 rs2 => encodeR 0b0000000#7 rs2 rs1 0b110#3 rd 0b0110011#7
  | .and rd rs1 rs2 => encodeR 0b0000000#7 rs2 rs1 0b111#3 rd 0b0110011#7
  | .mul rd rs1 rs2 => encodeR 0b0000001#7 rs2 rs1 0b000#3 rd 0b0110011#7
  | .mulh rd rs1 rs2 => encodeR 0b0000001#7 rs2 rs1 0b001#3 rd 0b0110011#7
  | .mulhsu rd rs1 rs2 => encodeR 0b0000001#7 rs2 rs1 0b010#3 rd 0b0110011#7
  | .mulhu rd rs1 rs2 => encodeR 0b0000001#7 rs2 rs1 0b011#3 rd 0b0110011#7
  | .div rd rs1 rs2 => encodeR 0b0000001#7 rs2 rs1 0b100#3 rd 0b0110011#7
  | .divu rd rs1 rs2 => encodeR 0b0000001#7 rs2 rs1 0b101#3 rd 0b0110011#7
  | .rem rd rs1 rs2 => encodeR 0b0000001#7 rs2 rs1 0b110#3 rd 0b0110011#7
  | .remu rd rs1 rs2 => encodeR 0b0000001#7 rs2 rs1 0b111#3 rd 0b0110011#7
  | .ecall => 0x00000073#32
  | .ebreak => 0x00100073#32
  | .mret => 0x30200073#32
  | .csrrw rd csr rs1 => encodeI csr rs1 0b001#3 rd 0b1110011#7
  | .csrrs rd csr rs1 => encodeI csr rs1 0b010#3 rd 0b1110011#7
  | .inv w => w

end Sys2Proof
end

