-- ==== Sys2Proof/Machine/Csr.lean ====
section
/-! DEFINITION. The four control and status registers: names, values and addresses (`10_state.md` R38 to R44). -/

namespace Sys2Proof.Machine

/-- The four recognised CSRs (R38). -/
inductive Csr where
  | mstatus
  | mtvec
  | mepc
  | mcause
  deriving DecidableEq, Repr

/-- The CSR file: four uninterpreted 32-bit words (R38 to R42). -/
structure Csrs where
  mstatus : Word
  mtvec : Word
  mepc : Word
  mcause : Word
  deriving DecidableEq, Repr, Inhabited

/-- Which CSR a 12-bit address selects; `none` at every unrecognised address (R38, R44). -/
def Csr.ofAddr (a : CsrAddr) : Option Csr :=
  if a = 0x300#12 then some .mstatus
  else if a = 0x305#12 then some .mtvec
  else if a = 0x341#12 then some .mepc
  else if a = 0x342#12 then some .mcause
  else none

/-- The value a CSR holds. All 32 bits are readable (R39 to R43). -/
def Csrs.get (c : Csrs) : Csr → Word
  | .mstatus => c.mstatus
  | .mtvec => c.mtvec
  | .mepc => c.mepc
  | .mcause => c.mcause

/-- The CSR file with one CSR written. All 32 bits are writable (R39 to R43). -/
def Csrs.set (c : Csrs) (r : Csr) (v : Word) : Csrs :=
  match r with
  | .mstatus => { c with mstatus := v }
  | .mtvec => { c with mtvec := v }
  | .mepc => { c with mepc := v }
  | .mcause => { c with mcause := v }

/-- A CSR read by address: an unrecognised address reads 0 (R44). -/
def Csrs.read (c : Csrs) (a : CsrAddr) : Word :=
  match Csr.ofAddr a with
  | some r => c.get r
  | none => 0#32

/-- A CSR write by address: a write at an unrecognised address is discarded (R44). -/
def Csrs.write (c : Csrs) (a : CsrAddr) (v : Word) : Csrs :=
  match Csr.ofAddr a with
  | some r => c.set r v
  | none => c

end Sys2Proof.Machine
end

