-- ==== Sys2Proof/Config.lean ====
section
/-! DEFINITION. The parameters of the machine (`00_scope.md` R8) as plain data, and the free values: constants with no
body, for what the spec leaves to a draw or to an external party. -/

namespace Sys2Proof

/-- A device region: the bytes [base, base + size) (`20_memory.md` R62). -/
structure Region where
  base : Nat
  size : Nat
  deriving DecidableEq, Repr

/-- GPR_RESET: what `x[1]` to `x[31]` hold after reset (`10_state.md` R49). -/
inductive GprReset where
  | zero
  | draw
  deriving DecidableEq, Repr

/-- TRAP_HANDLER: the reference handler (`60_exceptions.md` R255), or an external one under the contract of R254. -/
inductive TrapHandler where
  | reference
  | external
  deriving DecidableEq, Repr

/-- DIV_CORNER (`41_muldiv.md` R170, R179). -/
inductive DivCorner where
  | riscv
  | fault
  deriving DecidableEq, Repr

/-- SHAMT_SOURCE (`30_encoding.md` R103). -/
inductive ShamtSource where
  | field
  | register
  deriving DecidableEq, Repr

/-- The parameters of R8. They are fixed for a machine: no step changes them. -/
structure Config where
  mbase : Nat
  msize : Nat
  resetPc : Word
  deviceRegions : List Region
  gprReset : GprReset
  mstatusReset : Word
  syscallNoReg : RegIdx
  haltRetReg : RegIdx
  raReg : RegIdx
  trapHandler : TrapHandler
  divCorner : DivCorner
  shamtSource : ShamtSource
  deriving DecidableEq, Repr

/-- The defaults of R8. DESIGN CHOICE (log 2): MSTATUS_RESET is OPEN, and this default takes the value R8 suggests. -/
def Config.default : Config where
  mbase := 0x80000000
  msize := 0x08000000
  resetPc := 0x80000000#32
  deviceRegions := []
  gprReset := .zero
  mstatusReset := 0x00001800#32
  syscallNoReg := 17#5
  haltRetReg := 10#5
  raReg := 1#5
  trapHandler := .reference
  divCorner := .riscv
  shamtSource := .field

/-- Two byte ranges share no byte. -/
abbrev Region.disjoint (r q : Region) : Prop :=
  r.base + r.size ≤ q.base ∨ q.base + q.size ≤ r.base

/-- `pmem` as a range (R61). -/
def Config.pmem (c : Config) : Region := ⟨c.mbase, c.msize⟩

/-- What the spec asks of the parameters: `MBASE + MSIZE <= 2^32` (R61); device ranges that cannot wrap (R71), are
disjoint, and lie outside `pmem` (R62). -/
abbrev Config.wf (c : Config) : Prop :=
  c.mbase + c.msize ≤ 2 ^ 32 ∧
  (∀ r ∈ c.deviceRegions, r.base + r.size ≤ 2 ^ 32 ∧ r.disjoint c.pmem) ∧
  c.deviceRegions.Pairwise Region.disjoint

/-- INIT_MEM: the byte an address holds before any loader or store wrote it (`20_memory.md` R79). A free value. -/
opaque Config.initMem : Nat → Byte

/-- The reset value of register `n` with GPR_RESET = draw (`10_state.md` R49). A free value. -/
opaque Config.gprDraw : Nat → Word

/-- The value of the n-th device read, before it is cut to its width (`20_memory.md` R62). A free value. -/
opaque Config.devDraw : Nat → Word

/-- An external trap handler under the contract of `60_exceptions.md` R254: from (no, epc, registers, CSRs, memory) to
(CSRs', next PC). It can write nothing else. A free function: nothing is known of it. -/
opaque Config.externalHandler :
    Word → Word → Vector Word 32 → Machine.Csrs → List Host.Cell → Machine.Csrs × Word

end Sys2Proof
end

