-- ==== Sys2Proof/Machine/State.lean ====
section
/-! DEFINITION. The state of the engine as plain data (`10_state.md` R30 to R49), the reasons a step can stop, and the
state after reset. -/

namespace Sys2Proof.Machine

/-- Memory: the bytes a loader or a store has written, as (address, byte) pairs, addresses strictly rising. An address
that is not listed has no written byte; what it reads as is the free value `Config.initMem` (R79; log 4). -/
abbrev Memory := List Host.Cell

/-- The canonical form: addresses strictly rise. Unlisted addresses hold no byte, so no entry can repeat one (log 4). -/
abbrev Memory.wf (m : Memory) : Prop := m.Pairwise (fun p q => p.1 < q.1)

/-- The fatal errors, `Aborted(kind, info)` (R46; `60_exceptions.md` R250 to R252). -/
inductive Abort where
  /-- The fetched word matched only the `inv` row: its address and the word. -/
  | invalidInstruction (pc inst : Word)
  /-- An access was not admitted: its first byte, its width in bytes, the current pc. -/
  | outOfBounds (addr : Word) (n : Nat) (pc : Word)
  /-- A division corner with DIV_CORNER = fault. -/
  | divideCorner (pc : Word)
  deriving DecidableEq, Repr

/-- The run state (R46). -/
inductive Run where
  | running
  | ended (haltPc haltRet : Word)
  | aborted (why : Abort)
  deriving DecidableEq, Repr

/-- What the engine shows the outside: call-trace events (`43_control_transfer.md` R222) and device writes
(`20_memory.md` R62). -/
inductive Event where
  | call (pc target : Word)
  | ret (pc : Word)
  | devWrite (addr : Word) (n : Nat) (value : Word)
  deriving DecidableEq, Repr

/-- Why a machine can take no step. Raised by `step` only; both are SAFE: the spec gives no step there
(`60_exceptions.md` R265, `93_implementation_defined.md` U10). -/
inductive Fault where
  /-- `step` from `Ended`: EBREAK ended the run with these values. Safe: there is no step to model. -/
  | ended (haltPc haltRet : Word)
  /-- `step` from `Aborted`: a fatal error ended the run. Safe: there is no step to model. -/
  | aborted (why : Abort)
  deriving DecidableEq, Repr

/-- What the model declines. -/
inductive Refusal where
  /-- Raised by `exec` for an instruction that has no meaning yet. Safe: nothing can be proved of it. -/
  | notModelled (mnemonic : String)
  /-- Raised by the loader `hostReset` for an image piece with a byte outside `pmem` (`70_reset_and_hazards.md` R283,
  `93_implementation_defined.md` U11). Safe: the spec refuses such an image. -/
  | imageOutsidePmem (base : Nat) (length : Nat)
  deriving DecidableEq, Repr

/-- The state. `regs`, `pc`, `csrs`, `mem` and `run` are the spec's state (R30, R35, R38, R45, R46). `cfg` holds the
parameters (`00_scope.md` R8), which no step changes. `draws` counts device reads, so that each is a fresh free value
(log 5). `events` is the output record, oldest first; nothing reads it (log 6). -/
structure State where
  regs : Vector Word 32
  pc : Word
  csrs : Csrs
  mem : Memory
  run : Run
  cfg : Config
  draws : Nat
  events : List Event
  deriving DecidableEq, Repr

/-- The general registers after reset (R49): `x[0]` is 0, the others are 0 or draws, by GPR_RESET. -/
def resetRegs (c : Config) : Vector Word 32 :=
  match c.gprReset with
  | .zero => Vector.replicate 32 0#32
  | .draw => Vector.ofFn (fun n => if n.val = 0 then 0#32 else Config.gprDraw n.val)

/-- The state after reset for given parameters, before any image is loaded (R49; `70_reset_and_hazards.md` R280
steps 1 and 2). -/
def State.resetWith (c : Config) : State where
  regs := resetRegs c
  pc := c.resetPc
  csrs := { mstatus := c.mstatusReset, mtvec := 0#32, mepc := 0#32, mcause := 0#32 }
  mem := []
  run := .running
  cfg := c
  draws := 0
  events := []

/-- The state after reset with the default parameters (R49). -/
def State.reset : State := State.resetWith Config.default

end Sys2Proof.Machine
end

