-- ==== Sys2Proof/Machine/Ops.lean ====
section
/-! DEFINITION. The named operations on the state: registers, CSRs, memory, the device port, events, the end of a step,
fatal errors, taking a trap and returning from one, and the fetch. -/

namespace Sys2Proof.Machine

/-- The outcome of an instruction or a step. -/
abbrev Out := Host.Outcome State Fault Refusal

/-! ## General registers (`10_state.md` R30, R31) -/

/-- `x[i]`: read a general register (R30). -/
def State.reg (s : State) (i : RegIdx) : Word := s.regs[i.toNat]

/-- `x[i] <- v`: a write to `x[0]` lands in its storage too; the end of the step clears it (R31, D40). -/
def State.setReg (s : State) (i : RegIdx) (v : Word) : State :=
  { s with regs := s.regs.set i.toNat v }

/-! ## CSRs (`10_state.md` R38 to R44) -/

/-- `csr[a]`; an unrecognised address reads 0 (R44). -/
def State.csr (s : State) (a : CsrAddr) : Word := s.csrs.read a

/-- `csr[a] <- v`; discarded at an unrecognised address (R44). -/
def State.setCsr (s : State) (a : CsrAddr) (v : Word) : State :=
  { s with csrs := s.csrs.write a v }

/-! ## Bytes of memory (`20_memory.md` R61 to R66, R79) -/

/-- The byte written last at an address, if any was. -/
def Memory.lookup : Memory → Nat → Option Byte
  | [], _ => none
  | (k, b) :: m, a => if a = k then some b else Memory.lookup m a

/-- One byte written, the canonical form kept. -/
def Memory.setByte : Memory → Nat → Byte → Memory
  | [], a, b => [(a, b)]
  | (k, c) :: m, a, b =>
    if a < k then (a, b) :: (k, c) :: m
    else if a = k then (a, b) :: m
    else (k, c) :: Memory.setByte m a b

/-- Consecutive bytes written from an address upward. -/
def Memory.setBytes : Memory → Nat → List Byte → Memory
  | m, _, [] => m
  | m, a, b :: bs => Memory.setBytes (Memory.setByte m a b) (a + 1) bs

/-- What a byte of memory reads as: the last byte written there, or the INIT_MEM draw (R72, R79; log 4). -/
def Memory.byteAt (m : Memory) (a : Nat) : Byte :=
  match m.lookup a with
  | some b => b
  | none => Config.initMem a

/-- A word from its bytes, the first least significant: little-endian (R64). -/
def leWord : List Byte → Word
  | [] => 0#32
  | b :: bs => (leWord bs <<< 8) ||| b.setWidth 32

/-- The low `n` bytes of a word, the least significant first (R65). -/
def leBytes (n : Nat) (v : Word) : List Byte :=
  (List.range n).map (fun k => v.extractLsb' (8 * k) 8)

/-- The low `n` bytes of a word, zero-extended: `zext_{8n}` (R10). -/
def zextBytes (n : Nat) (v : Word) : Word := v &&& (BitVec.ofNat 32 (2 ^ (8 * n) - 1))

/-- `n` bytes of memory as a zero-extended little-endian word (R64). -/
def Memory.read (m : Memory) (a n : Nat) : Word :=
  leWord ((List.range n).map (fun k => m.byteAt (a + k)))

/-- The low `n` bytes of a word written little-endian (R65). -/
def Memory.write (m : Memory) (a n : Nat) (v : Word) : Memory :=
  m.setBytes a (leBytes n v)

/-- A byte of the state's memory: the model's read of one byte. -/
def State.byteAt (s : State) (a : Nat) : Byte := s.mem.byteAt a

/-! ## Admission and the device port (`20_memory.md` R62, R63, R71) -/

/-- Every one of `n` bytes from `a` lies in the region; no wrap-around (R63, R71). -/
def covers (r : Region) (a n : Nat) : Bool := decide (r.base ≤ a ∧ a + n ≤ r.base + r.size)

/-- Where an admitted access goes. -/
inductive AccessTarget where
  | pmem
  | device
  deriving DecidableEq, Repr

/-- The bounds check (R63): `pmem`, one device region, or not admitted. -/
def State.admission (s : State) (a : Word) (n : Nat) : Option AccessTarget :=
  if covers s.cfg.pmem a.toNat n then some .pmem
  else if s.cfg.deviceRegions.any (fun r => covers r a.toNat n) then some .device
  else none

/-- An event shown to the outside. It changes nothing the engine reads (R62; `43_control_transfer.md` R222). -/
def State.emit (s : State) (e : Event) : State := { s with events := s.events ++ [e] }

/-- `MemRead(addr, n)`: the value and the state after, or `none` when the access is not admitted. A device read is a
draw, zero above its width, and the next one is fresh (R62, R64, R70). -/
def State.memRead (s : State) (a : Word) (n : Nat) : Option (Word × State) :=
  match s.admission a n with
  | some .pmem => some (s.mem.read a.toNat n, s)
  | some .device => some (zextBytes n (Config.devDraw s.draws), { s with draws := s.draws + 1 })
  | none => none

/-- `MemWrite(addr, n, v)`: the state after, or `none` when the access is not admitted. A device write is an event and
changes no engine state (R62, R65). -/
def State.memWrite (s : State) (a : Word) (n : Nat) (v : Word) : Option State :=
  match s.admission a n with
  | some .pmem => some { s with mem := s.mem.write a.toNat n v }
  | some .device => some (s.emit (.devWrite a n (zextBytes n v)))
  | none => none

/-! ## Ending a step (`30_encoding.md` R116, R118; `60_exceptions.md` R253) -/

/-- `snpc`: the address of the next instruction in memory (R90, R114). -/
def State.snpc (s : State) : Word := s.pc + 4#32

/-- The end of a step that raised no fatal error: `x[0] <- 0`, then `pc <- dnpc` (R118). -/
def State.endStep (s : State) (dnpc : Word) : State :=
  { s.setReg 0#5 0#32 with pc := dnpc }

/-- A completed instruction that decided `dnpc`. -/
def State.finish (s : State) (dnpc : Word) : Out := .next (s.endStep dnpc)

/-- A completed instruction that writes `x[rd] <- v` and goes on to `snpc`. -/
def State.result (s : State) (rd : RegIdx) (v : Word) : Out := (s.setReg rd v).finish s.snpc

/-- `raise Fatal(kind, info)`: `run <- Aborted(kind, info)` and nothing else; no end-of-step update (R253). -/
def State.fatal (s : State) (why : Abort) : Out := .next { s with run := .aborted why }

/-! ## The trap boundary (`60_exceptions.md` R254 to R258) -/

/-- `TrapHandler(no, epc)`: the state after and the next PC. The reference handler is R255; an external one may write
the CSRs and nothing else (R254). -/
def State.takeTrap (s : State) (no epc : Word) : State × Word :=
  match s.cfg.trapHandler with
  | .reference => ({ s with csrs := { s.csrs with mepc := epc, mcause := no } }, s.csrs.mtvec)
  | .external =>
    let answer := Config.externalHandler no epc s.regs s.csrs s.mem
    ({ s with csrs := answer.1 }, answer.2)

/-- Where trap return goes: `mepc + 4` (`44_system_csr.md` R232, R257). -/
def State.trapReturn (s : State) : Word := s.csrs.mepc + 4#32

/-! ## Fetch (`30_encoding.md` R114; `20_memory.md` R68) -/

/-- Fetch and decode: the instruction at `pc` and the state to run it in, or the outcome of a fetch that is not
admitted. -/
def State.fetch (s : State) : Out ⊕ (Instr × State) :=
  match s.memRead s.pc 4 with
  | some (w, s1) => .inr (decodeWord w, s1)
  | none => .inl (s.fatal (.outOfBounds s.pc 4 s.pc))

/-- Why no step exists in this run state, if none does (`60_exceptions.md` R265). -/
def Run.stop : Run → Option Fault
  | .running => none
  | .ended haltPc haltRet => some (.ended haltPc haltRet)
  | .aborted why => some (.aborted why)

end Sys2Proof.Machine
end

