-- ==== Sys2Proof/Machine/Operands.lean ====
section
/-! DEFINITION. The operand values of each format (`30_encoding.md` R97 to R104) and the effective address
(`42_load_store.md` R190). Every source is read from the state before the action writes (R105). -/

namespace Sys2Proof.Machine

/-- `sext_12` of a format I or S immediate (R97, R99). -/
def imm12 (imm : BitVec 12) : Word := imm.signExtend 32

/-- Format U: the 20 bits in the upper part of the word, 12 zero bits below (R98). -/
def imm20 (imm : BitVec 20) : Word := imm ++ 0#12

/-- `sext_13` of a branch offset (R102). -/
def imm13 (off : BitVec 13) : Word := off.signExtend 32

/-- `sext_21` of a jump offset (R100). -/
def imm21 (off : BitVec 21) : Word := off.signExtend 32

/-- `sext_8` of the low byte of a word (R10). -/
def sext8 (v : Word) : Word := (v.extractLsb' 0 8).signExtend 32

/-- `sext_16` of the low halfword of a word (R10). -/
def sext16 (v : Word) : Word := (v.extractLsb' 0 16).signExtend 32

/-- The amount of a register shift: `src2[4:0]` (`40_integer_alu.md` R130). -/
def shiftAmount (v : Word) : Nat := (v.extractLsb' 0 5).toNat

/-- Format SHIFT: the shift amount is the field itself, or, with SHAMT_SOURCE = register, the low 5 bits of the register
the field names (R103). -/
def State.shamt (s : State) (field : BitVec 5) : Nat :=
  match s.cfg.shamtSource with
  | .field => field.toNat
  | .register => shiftAmount (s.reg field)

/-- The effective address `src1 + imm` (R190). -/
def State.ea (s : State) (rs1 : RegIdx) (imm : BitVec 12) : Word := s.reg rs1 + imm12 imm

end Sys2Proof.Machine
end

