-- ==== Sys2Proof/Machine/Alu.lean ====
section
/-! DEFINITION. Meanings: integer arithmetic, logic, shifts and comparisons (`40_integer_alu.md` R130 to R151). Each
writes `x[rd]` and nothing else, and goes on to `pc + 4`. -/

namespace Sys2Proof.Machine

/-- LUI (R131). -/
def execLui (rd : RegIdx) (imm : BitVec 20) (s : State) : Out :=
  s.result rd (imm20 imm)

/-- AUIPC (R132). -/
def execAuipc (rd : RegIdx) (imm : BitVec 20) (s : State) : Out :=
  s.result rd (s.pc + imm20 imm)

/-- ADDI (R133). -/
def execAddi (rd rs1 : RegIdx) (imm : BitVec 12) (s : State) : Out :=
  s.result rd (s.reg rs1 + imm12 imm)

/-- SLTI (R134). -/
def execSlti (rd rs1 : RegIdx) (imm : BitVec 12) (s : State) : Out :=
  s.result rd (flagWord (ltS (s.reg rs1) (imm12 imm)))

/-- SLTIU (R135): the immediate is sign-extended, then compared as unsigned. -/
def execSltiu (rd rs1 : RegIdx) (imm : BitVec 12) (s : State) : Out :=
  s.result rd (flagWord (ltU (s.reg rs1) (imm12 imm)))

/-- XORI (R136). -/
def execXori (rd rs1 : RegIdx) (imm : BitVec 12) (s : State) : Out :=
  s.result rd (s.reg rs1 ^^^ imm12 imm)

/-- ORI (R137). -/
def execOri (rd rs1 : RegIdx) (imm : BitVec 12) (s : State) : Out :=
  s.result rd (s.reg rs1 ||| imm12 imm)

/-- ANDI (R138). -/
def execAndi (rd rs1 : RegIdx) (imm : BitVec 12) (s : State) : Out :=
  s.result rd (s.reg rs1 &&& imm12 imm)

/-- SLLI (R139). -/
def execSlli (rd rs1 : RegIdx) (shamt : BitVec 5) (s : State) : Out :=
  s.result rd (s.reg rs1 <<< s.shamt shamt)

/-- SRLI (R140). -/
def execSrli (rd rs1 : RegIdx) (shamt : BitVec 5) (s : State) : Out :=
  s.result rd (s.reg rs1 >>> s.shamt shamt)

/-- SRAI (R141). -/
def execSrai (rd rs1 : RegIdx) (shamt : BitVec 5) (s : State) : Out :=
  s.result rd ((s.reg rs1).sshiftRight (s.shamt shamt))

/-- ADD (R142). -/
def execAdd (rd rs1 rs2 : RegIdx) (s : State) : Out :=
  s.result rd (s.reg rs1 + s.reg rs2)

/-- SUB (R143). -/
def execSub (rd rs1 rs2 : RegIdx) (s : State) : Out :=
  s.result rd (s.reg rs1 - s.reg rs2)

/-- SLL (R144). -/
def execSll (rd rs1 rs2 : RegIdx) (s : State) : Out :=
  s.result rd (s.reg rs1 <<< shiftAmount (s.reg rs2))

/-- SLT (R145). -/
def execSlt (rd rs1 rs2 : RegIdx) (s : State) : Out :=
  s.result rd (flagWord (ltS (s.reg rs1) (s.reg rs2)))

/-- SLTU (R146). -/
def execSltu (rd rs1 rs2 : RegIdx) (s : State) : Out :=
  s.result rd (flagWord (ltU (s.reg rs1) (s.reg rs2)))

/-- XOR (R147). -/
def execXor (rd rs1 rs2 : RegIdx) (s : State) : Out :=
  s.result rd (s.reg rs1 ^^^ s.reg rs2)

/-- SRL (R148). -/
def execSrl (rd rs1 rs2 : RegIdx) (s : State) : Out :=
  s.result rd (s.reg rs1 >>> shiftAmount (s.reg rs2))

/-- SRA (R149). -/
def execSra (rd rs1 rs2 : RegIdx) (s : State) : Out :=
  s.result rd ((s.reg rs1).sshiftRight (shiftAmount (s.reg rs2)))

/-- OR (R150). -/
def execOr (rd rs1 rs2 : RegIdx) (s : State) : Out :=
  s.result rd (s.reg rs1 ||| s.reg rs2)

/-- AND (R151). -/
def execAnd (rd rs1 rs2 : RegIdx) (s : State) : Out :=
  s.result rd (s.reg rs1 &&& s.reg rs2)

end Sys2Proof.Machine
end

