-- ==== Sys2Proof/Machine/Control.lean ====
section
/-! DEFINITION. Meanings: branches, jumps and the call-trace port (`43_control_transfer.md` R210 to R223). -/

namespace Sys2Proof.Machine

/-- A conditional branch: `dnpc <- pc + imm` when taken, else `snpc` (R210). -/
def State.branch (s : State) (taken : Bool) (off : BitVec 13) : Out :=
  s.finish (if taken then s.pc + imm13 off else s.snpc)

/-- The call-trace event of JAL: none with `rd = 0`, else a call (R222). -/
def traceJal (rd : RegIdx) (pc target : Word) : List Event :=
  if rd = 0#5 then [] else [.call pc target]

/-- The call-trace event of JALR: a return with `rd = 0` and `rs1 = RA_REG`, else a call (R222). -/
def traceJalr (c : Config) (rd rs1 : RegIdx) (pc target : Word) : List Event :=
  if rd = 0#5 ∧ rs1 = c.raReg then [.ret pc] else [.call pc target]

/-- A jump that links `snpc` in `x[rd]`, goes to `target`, and shows its trace events after the step (R217, R218,
R222). -/
def State.jump (s : State) (rd : RegIdx) (target : Word) (trace : List Event) : Out :=
  let done := (s.setReg rd s.snpc).endStep target
  .next { done with events := done.events ++ trace }

/-- BEQ (R211). -/
def execBeq (rs1 rs2 : RegIdx) (off : BitVec 13) (s : State) : Out :=
  s.branch (s.reg rs1 == s.reg rs2) off

/-- BNE (R212). -/
def execBne (rs1 rs2 : RegIdx) (off : BitVec 13) (s : State) : Out :=
  s.branch (s.reg rs1 != s.reg rs2) off

/-- BLT (R213). -/
def execBlt (rs1 rs2 : RegIdx) (off : BitVec 13) (s : State) : Out :=
  s.branch (ltS (s.reg rs1) (s.reg rs2)) off

/-- BGE (R214). -/
def execBge (rs1 rs2 : RegIdx) (off : BitVec 13) (s : State) : Out :=
  s.branch (!ltS (s.reg rs1) (s.reg rs2)) off

/-- BLTU (R215). -/
def execBltu (rs1 rs2 : RegIdx) (off : BitVec 13) (s : State) : Out :=
  s.branch (ltU (s.reg rs1) (s.reg rs2)) off

/-- BGEU (R216). -/
def execBgeu (rs1 rs2 : RegIdx) (off : BitVec 13) (s : State) : Out :=
  s.branch (!ltU (s.reg rs1) (s.reg rs2)) off

/-- JAL (R217). -/
def execJal (rd : RegIdx) (off : BitVec 21) (s : State) : Out :=
  let target := s.pc + imm21 off
  s.jump rd target (traceJal rd s.pc target)

/-- JALR (R218): bit 0 of the target is cleared. -/
def execJalr (rd rs1 : RegIdx) (imm : BitVec 12) (s : State) : Out :=
  let target := (s.reg rs1 + imm12 imm) &&& ~~~1#32
  s.jump rd target (traceJalr s.cfg rd rs1 s.pc target)

end Sys2Proof.Machine
end

