-- ==== Sys2Proof/Machine/LoadStore.lean ====
section
/-! DEFINITION. Meanings: loads and stores (`42_load_store.md` R190 to R200). One access at `src1 + imm`; an access
that is not admitted is fatal and writes nothing (R200). -/

namespace Sys2Proof.Machine

/-- A load of `n` bytes; `ext` extends the zero-extended value (R190 to R195). It reads memory even when `rd` is 0
(R199). -/
def State.load (s : State) (rd rs1 : RegIdx) (imm : BitVec 12) (n : Nat) (ext : Word → Word) : Out :=
  let ea := s.ea rs1 imm
  match s.memRead ea n with
  | some (v, s1) => s1.result rd (ext v)
  | none => s.fatal (.outOfBounds ea n s.pc)

/-- A store of the low `n` bytes of `x[rs2]` (R196 to R198). -/
def State.store (s : State) (rs2 rs1 : RegIdx) (imm : BitVec 12) (n : Nat) : Out :=
  let ea := s.ea rs1 imm
  match s.memWrite ea n (s.reg rs2) with
  | some s1 => s1.finish s.snpc
  | none => s.fatal (.outOfBounds ea n s.pc)

/-- LB (R191). -/
def execLb (rd rs1 : RegIdx) (imm : BitVec 12) (s : State) : Out :=
  s.load rd rs1 imm Width.byte.bytes sext8

/-- LH (R192). -/
def execLh (rd rs1 : RegIdx) (imm : BitVec 12) (s : State) : Out :=
  s.load rd rs1 imm Width.half.bytes sext16

/-- LW (R193). -/
def execLw (rd rs1 : RegIdx) (imm : BitVec 12) (s : State) : Out :=
  s.load rd rs1 imm Width.word.bytes id

/-- LBU (R194): the value is already zero-extended. -/
def execLbu (rd rs1 : RegIdx) (imm : BitVec 12) (s : State) : Out :=
  s.load rd rs1 imm Width.byte.bytes id

/-- LHU (R195): the value is already zero-extended. -/
def execLhu (rd rs1 : RegIdx) (imm : BitVec 12) (s : State) : Out :=
  s.load rd rs1 imm Width.half.bytes id

/-- SB (R196). -/
def execSb (rs2 rs1 : RegIdx) (imm : BitVec 12) (s : State) : Out :=
  s.store rs2 rs1 imm Width.byte.bytes

/-- SH (R197). -/
def execSh (rs2 rs1 : RegIdx) (imm : BitVec 12) (s : State) : Out :=
  s.store rs2 rs1 imm Width.half.bytes

/-- SW (R198). -/
def execSw (rs2 rs1 : RegIdx) (imm : BitVec 12) (s : State) : Out :=
  s.store rs2 rs1 imm Width.word.bytes

end Sys2Proof.Machine
end

