-- ==== Sys2Proof/Machine/MulDiv.lean ====
section
/-! DEFINITION. Meanings: multiply, divide and remainder (`41_muldiv.md` R170 to R179). Products are exact integers;
quotients round toward zero. -/

namespace Sys2Proof.Machine

/-- `trunc32((p) >> 32)`: the high word of an exact product, an arithmetic shift (R172). -/
def highWord (p : Int) : Word := BitVec.ofInt 32 (p >>> (32 : Nat))

/-- The signed overflow corner: the most negative word by -1 (R170). -/
def signedOverflow (a b : Word) : Bool := a == 0x80000000#32 && b == 0xFFFFFFFF#32

/-- DIV's value (R175). -/
def divValue (a b : Word) : Word :=
  if b = 0#32 then 0xFFFFFFFF#32
  else if signedOverflow a b then 0x80000000#32
  else BitVec.ofInt 32 (a.toInt.tdiv b.toInt)

/-- DIVU's value (R176). -/
def divuValue (a b : Word) : Word :=
  if b = 0#32 then 0xFFFFFFFF#32 else BitVec.ofNat 32 (a.toNat / b.toNat)

/-- REM's value (R177). -/
def remValue (a b : Word) : Word :=
  if b = 0#32 then a
  else if signedOverflow a b then 0#32
  else BitVec.ofInt 32 (a.toInt - b.toInt * (a.toInt.tdiv b.toInt))

/-- REMU's value (R178). -/
def remuValue (a b : Word) : Word :=
  if b = 0#32 then a else BitVec.ofNat 32 (a.toNat % b.toNat)

/-- A division: with DIV_CORNER = fault a corner is fatal and nothing is written; else the value is written (R179). -/
def State.divide (s : State) (rd : RegIdx) (corner : Bool) (v : Word) : Out :=
  if s.cfg.divCorner = .fault ∧ corner = true then s.fatal (.divideCorner s.pc) else s.result rd v

/-- MUL (R171). -/
def execMul (rd rs1 rs2 : RegIdx) (s : State) : Out :=
  s.result rd (BitVec.ofNat 32 ((s.reg rs1).toNat * (s.reg rs2).toNat))

/-- MULH (R172). -/
def execMulh (rd rs1 rs2 : RegIdx) (s : State) : Out :=
  s.result rd (highWord ((s.reg rs1).toInt * (s.reg rs2).toInt))

/-- MULHSU (R173): `src1` signed, `src2` unsigned. -/
def execMulhsu (rd rs1 rs2 : RegIdx) (s : State) : Out :=
  s.result rd (highWord ((s.reg rs1).toInt * ((s.reg rs2).toNat : Int)))

/-- MULHU (R174). -/
def execMulhu (rd rs1 rs2 : RegIdx) (s : State) : Out :=
  s.result rd (highWord (((s.reg rs1).toNat : Int) * ((s.reg rs2).toNat : Int)))

/-- DIV (R175). -/
def execDiv (rd rs1 rs2 : RegIdx) (s : State) : Out :=
  let a := s.reg rs1
  let b := s.reg rs2
  s.divide rd (b == 0#32 || signedOverflow a b) (divValue a b)

/-- DIVU (R176). -/
def execDivu (rd rs1 rs2 : RegIdx) (s : State) : Out :=
  let a := s.reg rs1
  let b := s.reg rs2
  s.divide rd (b == 0#32) (divuValue a b)

/-- REM (R177). -/
def execRem (rd rs1 rs2 : RegIdx) (s : State) : Out :=
  let a := s.reg rs1
  let b := s.reg rs2
  s.divide rd (b == 0#32 || signedOverflow a b) (remValue a b)

/-- REMU (R178). -/
def execRemu (rd rs1 rs2 : RegIdx) (s : State) : Out :=
  let a := s.reg rs1
  let b := s.reg rs2
  s.divide rd (b == 0#32) (remuValue a b)

end Sys2Proof.Machine
end

