-- ==== Sys2Proof/Machine/System.lean ====
section
/-! DEFINITION. Meanings: system, trap and CSR instructions and the catch-all `inv` (`44_system_csr.md` R230 to R236,
R245). -/

namespace Sys2Proof.Machine

/-- ECALL (R230): `dnpc <- TrapHandler(x[SYSCALL_NO_REG], pc)`. -/
def execEcall (s : State) : Out :=
  let answer := s.takeTrap (s.reg s.cfg.syscallNoReg) s.pc
  answer.1.finish answer.2

/-- EBREAK (R231): `run <- Ended(pc, x[HALT_RET_REG])`; the end-of-step updates still happen. -/
def execEbreak (s : State) : Out :=
  State.finish { s with run := .ended s.pc (s.reg s.cfg.haltRetReg) } s.snpc

/-- MRET (R232): `dnpc <- mepc + 4` and nothing else. -/
def execMret (s : State) : Out := s.finish s.trapReturn

/-- CSRRW (R234): `t <- csr[a]; csr[a] <- src1; x[rd] <- t`. -/
def execCsrrw (rd : RegIdx) (csr : CsrAddr) (rs1 : RegIdx) (s : State) : Out :=
  (s.setCsr csr (s.reg rs1)).result rd (s.csr csr)

/-- CSRRS (R235): `t <- csr[a]; csr[a] <- t | src1; x[rd] <- t`. -/
def execCsrrs (rd : RegIdx) (csr : CsrAddr) (rs1 : RegIdx) (s : State) : Out :=
  (s.setCsr csr (s.csr csr ||| s.reg rs1)).result rd (s.csr csr)

/-- `inv` (R245): `raise Fatal(InvalidInstruction, (pc, inst))`. -/
def execInv (word : Word) (s : State) : Out := s.fatal (.invalidInstruction s.pc word)

end Sys2Proof.Machine
end

