-- ==== Sys2Proof/Machine/Step.lean ====
section
/-! DEFINITION. One step of the engine (`30_encoding.md` R113 to R119), and placing an instruction where it is fetched. -/

namespace Sys2Proof.Machine

/-- `step()`: nothing from `Ended` or `Aborted` (`60_exceptions.md` R265); else fetch, decode, and run the instruction
(R113). -/
def step (s : State) : Host.Outcome State Fault Refusal :=
  match s.run.stop with
  | some why => .fault why
  | none =>
    match s.fetch with
    | .inl out => out
    | .inr (i, s1) => exec i s1

/-- The state with the bytes of an instruction at `pc` and the engine running, as the external loader would leave it
(`70_reset_and_hazards.md` R283; log 9). Nothing is placed where `pmem` does not hold four bytes at `pc`. -/
def State.withFetchWord (s : State) (nbits w : Nat) : State :=
  if s.admission s.pc 4 = some .pmem then
    { s with mem := s.mem.setBytes s.pc.toNat (tableBytes nbits w), run := .running }
  else s

end Sys2Proof.Machine
end

