-- ==== Sys2Proof/Machine/Assembler.lean ====
section
/-! DEFINITION. Register names, assembler text and pseudo-instructions (`10_state.md` R33, `30_encoding.md` R109, R110).
No rule of the engine depends on them (R33). -/

namespace Sys2Proof.Machine

/-- The ABI names, by register number (R33). -/
def abiNames : List String :=
  ["zero", "ra", "sp", "gp", "tp", "t0", "t1", "t2", "s0", "s1",
   "a0", "a1", "a2", "a3", "a4", "a5", "a6", "a7"] ++
  ["s2", "s3", "s4", "s5", "s6", "s7", "s8", "s9", "s10", "s11", "t3", "t4", "t5", "t6"]

/-- The ABI name of a register (R33). -/
def regName (r : RegIdx) : String := abiNames.getD r.toNat ""

/-- The numeric names `x0` to `x31`, by register number (R109). -/
def numericNames : List String := (List.range 32).map (fun n => "x" ++ toString n)

/-- The register a name names: an ABI name or `x0` to `x31`; `fp` is `s0`, and the debugger's `$0` is `zero` (R33,
R109). -/
def regOfName (n : String) : Option RegIdx :=
  if n = "fp" then some 8#5
  else if n = "$0" then some 0#5
  else ((abiNames.findIdx? (fun m => m == n)).or (numericNames.findIdx? (fun m => m == n))).map (BitVec.ofNat 5)

/-- A number as `0x` and hexadecimal digits. -/
def hexText (n : Nat) : String := "0x" ++ String.ofList (Nat.toDigits 16 n)

/-- The name of a recognised CSR, else its address as a number (R38, R109). -/
def csrText (a : CsrAddr) : String :=
  match Csr.ofAddr a with
  | some .mstatus => "mstatus"
  | some .mtvec => "mtvec"
  | some .mepc => "mepc"
  | some .mcause => "mcause"
  | none => hexText a.toNat

/-- `op a, b, c`. -/
def asm3 (op a b c : String) : String := op ++ " " ++ a ++ ", " ++ b ++ ", " ++ c

/-- `op a, b`. -/
def asm2 (op a b : String) : String := op ++ " " ++ a ++ ", " ++ b

/-- `imm(rs1)`. -/
def asmAddress (imm : BitVec 12) (rs1 : RegIdx) : String :=
  toString imm.toInt ++ "(" ++ regName rs1 ++ ")"

/-- Format R text (R109). -/
def asmR (op : String) (rd rs1 rs2 : RegIdx) : String := asm3 op (regName rd) (regName rs1) (regName rs2)

/-- Format I arithmetic text (R109). -/
def asmI (op : String) (rd rs1 : RegIdx) (imm : BitVec 12) : String :=
  asm3 op (regName rd) (regName rs1) (toString imm.toInt)

/-- Shift by immediate text (R109). -/
def asmShift (op : String) (rd rs1 : RegIdx) (shamt : BitVec 5) : String :=
  asm3 op (regName rd) (regName rs1) (toString shamt.toNat)

/-- Branch text; the target is the byte offset (R109). -/
def asmB (op : String) (rs1 rs2 : RegIdx) (off : BitVec 13) : String :=
  asm3 op (regName rs1) (regName rs2) (toString off.toInt)

/-- Load, store and JALR text (R109). -/
def asmMem (op : String) (r rs1 : RegIdx) (imm : BitVec 12) : String :=
  asm2 op (regName r) (asmAddress imm rs1)

/-- CSR instruction text (R109). -/
def asmCsr (op : String) (rd : RegIdx) (csr : CsrAddr) (rs1 : RegIdx) : String :=
  asm3 op (regName rd) (csrText csr) (regName rs1)

/-- The assembler text of an instruction (R109); a word no row matches is shown as data. -/
def asmText : Instr → String
  | .lui rd imm => asm2 "lui" (regName rd) (hexText imm.toNat)
  | .auipc rd imm => asm2 "auipc" (regName rd) (hexText imm.toNat)
  | .jal rd off => asm2 "jal" (regName rd) (toString off.toInt)
  | .jalr rd rs1 imm => asmMem "jalr" rd rs1 imm
  | .beq rs1 rs2 off => asmB "beq" rs1 rs2 off
  | .bne rs1 rs2 off => asmB "bne" rs1 rs2 off
  | .blt rs1 rs2 off => asmB "blt" rs1 rs2 off
  | .bge rs1 rs2 off => asmB "bge" rs1 rs2 off
  | .bltu rs1 rs2 off => asmB "bltu" rs1 rs2 off
  | .bgeu rs1 rs2 off => asmB "bgeu" rs1 rs2 off
  | .lb rd rs1 imm => asmMem "lb" rd rs1 imm
  | .lh rd rs1 imm => asmMem "lh" rd rs1 imm
  | .lw rd rs1 imm => asmMem "lw" rd rs1 imm
  | .lbu rd rs1 imm => asmMem "lbu" rd rs1 imm
  | .lhu rd rs1 imm => asmMem "lhu" rd rs1 imm
  | .sb rs2 rs1 imm => asmMem "sb" rs2 rs1 imm
  | .sh rs2 rs1 imm => asmMem "sh" rs2 rs1 imm
  | .sw rs2 rs1 imm => asmMem "sw" rs2 rs1 imm
  | .addi rd rs1 imm => asmI "addi" rd rs1 imm
  | .slti rd rs1 imm => asmI "slti" rd rs1 imm
  | .sltiu rd rs1 imm => asmI "sltiu" rd rs1 imm
  | .xori rd rs1 imm => asmI "xori" rd rs1 imm
  | .ori rd rs1 imm => asmI "ori" rd rs1 imm
  | .andi rd rs1 imm => asmI "andi" rd rs1 imm
  | .slli rd rs1 shamt => asmShift "slli" rd rs1 shamt
  | .srli rd rs1 shamt => asmShift "srli" rd rs1 shamt
  | .srai rd rs1 shamt => asmShift "srai" rd rs1 shamt
  | .add rd rs1 rs2 => asmR "add" rd rs1 rs2
  | .sub rd rs1 rs2 => asmR "sub" rd rs1 rs2
  | .sll rd rs1 rs2 => asmR "sll" rd rs1 rs2
  | .slt rd rs1 rs2 => asmR "slt" rd rs1 rs2
  | .sltu rd rs1 rs2 => asmR "sltu" rd rs1 rs2
  | .xor rd rs1 rs2 => asmR "xor" rd rs1 rs2
  | .srl rd rs1 rs2 => asmR "srl" rd rs1 rs2
  | .sra rd rs1 rs2 => asmR "sra" rd rs1 rs2
  | .or rd rs1 rs2 => asmR "or" rd rs1 rs2
  | .and rd rs1 rs2 => asmR "and" rd rs1 rs2
  | .mul rd rs1 rs2 => asmR "mul" rd rs1 rs2
  | .mulh rd rs1 rs2 => asmR "mulh" rd rs1 rs2
  | .mulhsu rd rs1 rs2 => asmR "mulhsu" rd rs1 rs2
  | .mulhu rd rs1 rs2 => asmR "mulhu" rd rs1 rs2
  | .div rd rs1 rs2 => asmR "div" rd rs1 rs2
  | .divu rd rs1 rs2 => asmR "divu" rd rs1 rs2
  | .rem rd rs1 rs2 => asmR "rem" rd rs1 rs2
  | .remu rd rs1 rs2 => asmR "remu" rd rs1 rs2
  | .ecall => "ecall"
  | .ebreak => "ebreak"
  | .mret => "mret"
  | .csrrw rd csr rs1 => asmCsr "csrrw" rd csr rs1
  | .csrrs rd csr rs1 => asmCsr "csrrs" rd csr rs1
  | .inv w => ".word " ++ hexText w.toNat

/-! ## Pseudo-instructions (R110) -/

/-- The pseudo-instructions. Near targets are byte offsets; the far targets of `call`, `tail` and `la` are addresses. -/
inductive Pseudo where
  | nop
  | li (rd : RegIdx) (imm : Word)
  | mv (rd rs : RegIdx)
  | not (rd rs : RegIdx)
  | neg (rd rs : RegIdx)
  | seqz (rd rs : RegIdx)
  | snez (rd rs : RegIdx)
  | sltz (rd rs : RegIdx)
  | sgtz (rd rs : RegIdx)
  | beqz (rs : RegIdx) (off : BitVec 13)
  | bnez (rs : RegIdx) (off : BitVec 13)
  | blez (rs : RegIdx) (off : BitVec 13)
  | bgez (rs : RegIdx) (off : BitVec 13)
  | bltz (rs : RegIdx) (off : BitVec 13)
  | bgtz (rs : RegIdx) (off : BitVec 13)
  | bgt (rs rt : RegIdx) (off : BitVec 13)
  | ble (rs rt : RegIdx) (off : BitVec 13)
  | bgtu (rs rt : RegIdx) (off : BitVec 13)
  | bleu (rs rt : RegIdx) (off : BitVec 13)
  | j (off : BitVec 21)
  | jal (off : BitVec 21)
  | jr (rs : RegIdx)
  | jalr (rs : RegIdx)
  | ret
  | call (target : Word)
  | tail (target : Word)
  | la (rd : RegIdx) (address : Word)
  | csrr (rd : RegIdx) (csr : CsrAddr)
  | csrw (csr : CsrAddr) (rs : RegIdx)
  | csrs (csr : CsrAddr) (rs : RegIdx)
  deriving DecidableEq, Repr

/-- The upper 20 bits that go with `lowPart`: `(v + 0x800) >> 12` (R110). -/
def highPart (v : Word) : BitVec 20 := (v + 0x800#32).extractLsb' 12 20

/-- The low 12 bits, read as a signed immediate (R110). -/
def lowPart (v : Word) : BitVec 12 := v.extractLsb' 0 12

/-- The instructions a pseudo-instruction at address `pc` stands for (R110). -/
def Pseudo.expand (pc : Word) : Pseudo → List Instr
  | .nop => [.addi 0#5 0#5 0#12]
  | .li rd imm =>
    if -2048 ≤ imm.toInt ∧ imm.toInt ≤ 2047 then [.addi rd 0#5 (lowPart imm)]
    else [.lui rd (highPart imm), .addi rd rd (lowPart imm)]
  | .mv rd rs => [.addi rd rs 0#12]
  | .not rd rs => [.xori rd rs 0xFFF#12]
  | .neg rd rs => [.sub rd 0#5 rs]
  | .seqz rd rs => [.sltiu rd rs 1#12]
  | .snez rd rs => [.sltu rd 0#5 rs]
  | .sltz rd rs => [.slt rd rs 0#5]
  | .sgtz rd rs => [.slt rd 0#5 rs]
  | .beqz rs off => [.beq rs 0#5 off]
  | .bnez rs off => [.bne rs 0#5 off]
  | .blez rs off => [.bge 0#5 rs off]
  | .bgez rs off => [.bge rs 0#5 off]
  | .bltz rs off => [.blt rs 0#5 off]
  | .bgtz rs off => [.blt 0#5 rs off]
  | .bgt rs rt off => [.blt rt rs off]
  | .ble rs rt off => [.bge rt rs off]
  | .bgtu rs rt off => [.bltu rt rs off]
  | .bleu rs rt off => [.bgeu rt rs off]
  | .j off => [.jal 0#5 off]
  | .jal off => [.jal 1#5 off]
  | .jr rs => [.jalr 0#5 rs 0#12]
  | .jalr rs => [.jalr 1#5 rs 0#12]
  | .ret => [.jalr 0#5 1#5 0#12]
  | .call target => [.auipc 1#5 (highPart (target - pc)), .jalr 1#5 1#5 (lowPart (target - pc))]
  | .tail target => [.auipc 6#5 (highPart (target - pc)), .jalr 0#5 6#5 (lowPart (target - pc))]
  | .la rd address => [.auipc rd (highPart (address - pc)), .addi rd rd (lowPart (address - pc))]
  | .csrr rd csr => [.csrrs rd csr 0#5]
  | .csrw csr rs => [.csrrw 0#5 csr rs]
  | .csrs csr rs => [.csrrs 0#5 csr rs]

end Sys2Proof.Machine
end

