-- ==== Sys2Proof/Machine/HostPort.lean ====
section
/-! DEFINITION. What the host can do between steps: reset with an image, step up to N times, read registers and memory
(`60_exceptions.md` R265, R266; `70_reset_and_hazards.md` R280, R283). -/

namespace Sys2Proof.Machine

/-- A piece of a program image: bytes for the addresses from `base` upward (R283). -/
structure Segment where
  base : Nat
  bytes : List Byte
  deriving DecidableEq, Repr

/-- Every byte of the piece lies in `pmem` (R283). A piece with no bytes asks for nothing, wherever it is based. -/
def Segment.fits (g : Segment) (c : Config) : Bool :=
  g.bytes.isEmpty || covers c.pmem g.base g.bytes.length

/-- The external loader: every image byte must lie in `pmem`, else the image is refused (R283). DESIGN CHOICE (log 21):
the pieces are written in the order of the list, so where two give the same address the later one's byte stands. -/
def loadImage : List Segment → State → Out
  | [], s => .next s
  | g :: rest, s =>
    if g.fits s.cfg then
      loadImage rest { s with mem := s.mem.setBytes g.base g.bytes }
    else .refused (.imageOutsidePmem g.base g.bytes.length)

/-- `reset(image)` (R280): the reset values, then the loader. -/
def hostReset (c : Config) (image : List Segment) : Out := loadImage image (State.resetWith c)

/-- A raw binary image: one segment at `RESET_PC` (R283). -/
def rawImage (c : Config) (bytes : List Byte) : List Segment := [⟨c.resetPc.toNat, bytes⟩]

/-- `step^N`: up to `n` steps, stopping as soon as `run` is not Running (R265). `continue` is this with a bound. -/
def hostSteps : Nat → State → Out
  | 0, s => .next s
  | n + 1, s =>
    match s.run with
    | .running =>
      match step s with
      | .next s1 => hostSteps n s1
      | .fault why => .fault why
      | .refused why => .refused why
    | .ended _ _ | .aborted _ => .next s

/-- One host read, `MemRead(addr, 4)`: the word, or a fatal error that records the current pc (R266, R252). -/
def hostRead (a : Word) (s : State) : Option Word × State :=
  match s.memRead a 4 with
  | some (v, s1) => (some v, s1)
  | none => (none, { s with run := .aborted (.outOfBounds a 4 s.pc) })

/-- `x N ADDR`: `n` words from `a`, up to the first fatal read (R266; log 12). -/
def hostExamine : Nat → Word → State → List Word × State
  | 0, _, s => ([], s)
  | n + 1, a, s =>
    match hostRead a s with
    | (some v, s1) =>
      let rest := hostExamine n (a + 4#32) s1
      (v :: rest.1, rest.2)
    | (none, s1) => ([], s1)

/-- `info r`: all general registers, the pc and the CSRs (R266). -/
def hostRegisters (s : State) : Vector Word 32 × Word × Csrs := (s.regs, s.pc, s.csrs)

end Sys2Proof.Machine
end

