-- ==== Sys2Proof/Safety.lean ====
section
/-! DEFINITION. The terms the claims use: the invariant of the machine, safe runs, and what an instruction leaves
unchanged. -/

namespace Sys2Proof.Machine

/-- Every listed byte lies in `pmem` (`10_state.md` R45, `20_memory.md` R61). -/
abbrev Memory.within (m : Memory) (r : Region) : Prop := ∀ c ∈ m, r.base ≤ c.1 ∧ c.1 < r.base + r.size

/-- Where `pc` stands once a run is over: at the faulting instruction after a fatal error (`60_exceptions.md` R253),
just past the EBREAK after `Ended` (`44_system_csr.md` R231). -/
def Run.fitsPc : Run → Word → Bool
  | .running, _ => true
  | .ended haltPc _, pc => pc == haltPc + 4#32
  | .aborted (.invalidInstruction at_ _), pc => pc == at_
  | .aborted (.outOfBounds _ _ at_), pc => pc == at_
  | .aborted (.divideCorner at_), pc => pc == at_

/-- The invariant: legal parameters, register 0 clear (R31), memory in its canonical form and inside `pmem`, and `pc`
where the run state puts it. -/
structure State.Inv (s : State) : Prop where
  cfgWf : s.cfg.wf
  zeroReg : s.reg 0#5 = 0#32
  memWf : s.mem.wf
  memWithin : s.mem.within s.cfg.pmem
  runPc : s.run.fitsPc s.pc = true

/-- No fatal error has ended the run: what a safe run keeps. -/
def State.Safe (s : State) : Prop := ∀ why, s.run ≠ .aborted why

/-- General registers after a completed instruction that writes `x[rd] <- v`: register 0 is clear, every other
register keeps its value. With `rd = 0` nothing is written (R31). -/
def WritesReg (s t : State) (rd : RegIdx) (v : Word) : Prop :=
  ∀ r : RegIdx, t.reg r = if r = 0#5 then 0#32 else if r = rd then v else s.reg r

/-- General registers after a completed instruction that writes none: register 0 is clear, the others are unchanged. -/
def KeepsRegs (s t : State) : Prop :=
  ∀ r : RegIdx, t.reg r = if r = 0#5 then 0#32 else s.reg r

/-- Memory is unchanged, byte for byte and as data. -/
def KeepsMem (s t : State) : Prop := t.mem = s.mem ∧ ∀ a, t.byteAt a = s.byteAt a

/-- The run state, the parameters, the device-read counter and the output record are unchanged. -/
def KeepsRest (s t : State) : Prop :=
  t.run = s.run ∧ t.cfg = s.cfg ∧ t.draws = s.draws ∧ t.events = s.events

/-- An instruction completed, wrote `x[rd] <- v`, set `pc`, and changed nothing else. -/
def OnlyWrites (s t : State) (rd : RegIdx) (v dnpc : Word) : Prop :=
  WritesReg s t rd v ∧ t.pc = dnpc ∧ t.csrs = s.csrs ∧ KeepsMem s t ∧ KeepsRest s t

/-- An instruction completed, set `pc`, and changed nothing else (register 0 is clear). -/
def OnlyGoesTo (s t : State) (dnpc : Word) : Prop :=
  KeepsRegs s t ∧ t.pc = dnpc ∧ t.csrs = s.csrs ∧ KeepsMem s t ∧ KeepsRest s t

/-- A fatal error: only `run` changed (`60_exceptions.md` R253). -/
def OnlyAborts (s t : State) (why : Abort) : Prop := t = { s with run := .aborted why }

/-- All `n` bytes at `a` lie in `pmem`, with no wrap-around (`20_memory.md` R63). -/
abbrev InPmem (s : State) (a : Word) (n : Nat) : Prop :=
  s.cfg.mbase ≤ a.toNat ∧ a.toNat + n ≤ s.cfg.mbase + s.cfg.msize

/-- The access misses `pmem`, and all `n` bytes at `a` lie in one device region (`20_memory.md` R63). -/
abbrev InDevice (s : State) (a : Word) (n : Nat) : Prop :=
  ¬ InPmem s a n ∧ ∃ r ∈ s.cfg.deviceRegions, r.base ≤ a.toNat ∧ a.toNat + n ≤ r.base + r.size

/-- The access is not admitted (`20_memory.md` R63). -/
abbrev OutOfBounds (s : State) (a : Word) (n : Nat) : Prop :=
  ¬ InPmem s a n ∧ ¬ ∃ r ∈ s.cfg.deviceRegions, r.base ≤ a.toNat ∧ a.toNat + n ≤ r.base + r.size

/-- The register an instruction may write, if any (`10_state.md` R32). -/
def destination : Instr → Option RegIdx
  | .lui rd _ | .auipc rd _ | .jal rd _ | .jalr rd _ _ => some rd
  | .lb rd _ _ | .lh rd _ _ | .lw rd _ _ | .lbu rd _ _ | .lhu rd _ _ => some rd
  | .addi rd _ _ | .slti rd _ _ | .sltiu rd _ _ | .xori rd _ _ | .ori rd _ _ | .andi rd _ _ => some rd
  | .slli rd _ _ | .srli rd _ _ | .srai rd _ _ => some rd
  | .add rd _ _ | .sub rd _ _ | .sll rd _ _ | .slt rd _ _ | .sltu rd _ _ => some rd
  | .xor rd _ _ | .srl rd _ _ | .sra rd _ _ | .or rd _ _ | .and rd _ _ => some rd
  | .mul rd _ _ | .mulh rd _ _ | .mulhsu rd _ _ | .mulhu rd _ _ => some rd
  | .div rd _ _ | .divu rd _ _ | .rem rd _ _ | .remu rd _ _ => some rd
  | .csrrw rd _ _ | .csrrs rd _ _ => some rd
  | .beq _ _ _ | .bne _ _ _ | .blt _ _ _ | .bge _ _ _ | .bltu _ _ _ | .bgeu _ _ _ => none
  | .sb _ _ _ | .sh _ _ _ | .sw _ _ _ => none
  | .ecall | .ebreak | .mret | .inv _ => none

/-- The instructions that store to memory (`42_load_store.md` R196 to R198). -/
def isStore : Instr → Bool
  | .sb _ _ _ | .sh _ _ _ | .sw _ _ _ => true
  | _ => false

/-- The instructions that can change a CSR: CSRRW, CSRRS, and ECALL through its handler (`10_state.md` R39,
`60_exceptions.md` R254). -/
def canWriteCsr : Instr → Bool
  | .csrrw _ _ _ | .csrrs _ _ _ | .ecall => true
  | _ => false

/-- The CSR instructions that address `mstatus` (`10_state.md` R39). -/
def addressesMstatus : Instr → Bool
  | .csrrw _ a _ | .csrrs _ a _ => a == 0x300#12
  | _ => false

end Sys2Proof.Machine
end

