-- ==== Sys2Proof/Certificates/Slice0/Obligations.lean ====
section
/-! DEFINITION. The statements for the provers. Each docstring names the rule of the spec it formalises. -/

open Sys2Proof Sys2Proof.Machine

/-! ## Encoding and decoding -/

/-- The decoder reads back every well-formed instruction from its word (R91 to R104): no operand bit is dropped. -/
def Obligations.DecodeOfEncodeIsIdentity : Prop :=
  ∀ i : Instr, i.wf = true → decodeWord (encode i) = i

/-- Every word has one meaning: what it decodes to is well-formed and encodes to that word (R94, R115). -/
def Obligations.EncodeOfDecodeIsIdentity : Prop :=
  ∀ w : Word, (decodeWord w).wf = true ∧ encode (decodeWord w) = w

/-- R94: the first full match of the table wins; the catch-all is last and matches every word; no two rows before it
match a common word. -/
def Obligations.FirstFullMatchWins : Prop :=
  (∀ (before after : List Row) (r : Row) (w : Word), table = before ++ r :: after → r.hits w = true →
    (∀ q ∈ before, q.hits w = false) → decodeWord w = r.shape.read w) ∧
  (∃ rows, table = rows ++ [invRow] ∧ rows.length = 50 ∧
    (∀ w, invRow.hits w = true) ∧
    ∀ r ∈ rows, ∀ q ∈ rows, ∀ w, r.hits w = true → q.hits w = true → r = q)

/-- A few words written out from R91 and R95 decode to the instructions they stand for. -/
def Obligations.SampleWordsDecode : Prop :=
  decodeWord 0b00010010001101000101_01010_0110111#32 = .lui 10#5 0x12345#20 ∧
  decodeWord 0b0000000_01100_01011_000_01010_0110011#32 = .add 10#5 11#5 12#5 ∧
  decodeWord 0b0100000_00100_01011_101_01010_0010011#32 = .srai 10#5 11#5 4#5 ∧
  decodeWord 0b111111111100_01011_010_01010_0000011#32 = .lw 10#5 11#5 (-4) ∧
  decodeWord 0b1111111_01100_01011_001_11101_1100011#32 = .bne 11#5 12#5 (-4) ∧
  decodeWord 0b0011000_00010_00000_000_00000_1110011#32 = .mret

/-- R108: every row requires `inst[1:0] = 0b11`, so a compressed encoding is invalid. -/
def Obligations.CompressedFormsAreInvalid : Prop :=
  (∀ r ∈ instrRows, ∀ w : Word, r.hits w = true → w.extractLsb' 0 2 = 0b11#2) ∧
  ∀ w : Word, w.extractLsb' 0 2 ≠ 0b11#2 → decodeWord w = .inv w

/-- R73, R74: every word of the FENCE and AMO major opcodes matches no row and is fatal. -/
def Obligations.FencesAndAtomicsAreFatal : Prop :=
  ∀ (w : Word) (s : State), w.extractLsb' 0 7 = 0b0001111#7 ∨ w.extractLsb' 0 7 = 0b0101111#7 →
    decodeWord w = .inv w ∧
    ∃ t, exec (decodeWord w) s = .next t ∧ OnlyAborts s t (.invalidInstruction s.pc w)

/-- R236: CSRRC and the immediate CSR forms match `inv` and are fatal. -/
def Obligations.OtherCsrFormsAreFatal : Prop :=
  ∀ (csr : CsrAddr) (rs1 rd : RegIdx) (f3 : BitVec 3) (s : State),
    f3 = 0b011#3 ∨ f3 = 0b101#3 ∨ f3 = 0b110#3 ∨ f3 = 0b111#3 →
    ∃ t, exec (decodeWord (csr ++ rs1 ++ f3 ++ rd ++ 0b1110011#7)) s = .next t ∧
      OnlyAborts s t (.invalidInstruction s.pc (csr ++ rs1 ++ f3 ++ rd ++ 0b1110011#7))

/-! ## The step -/

/-- A step runs the decoded instruction (R113): when the engine is Running and the four bytes at `pc` decode to an
instruction, the step is that instruction's meaning, with nothing around it. -/
def Obligations.StepRunsTheDecodedInstruction : Prop :=
  ∀ (s : State) (i : Instr) (rest : List Byte), s.run = .running → InPmem s s.pc 4 →
    decode [s.byteAt s.pc.toNat, s.byteAt (s.pc.toNat + 1), s.byteAt (s.pc.toNat + 2), s.byteAt (s.pc.toNat + 3)]
      = .ok (i, rest) →
    step s = exec i s

/-- R114, R68: the fetch reads four bytes at `pc`, aligned or not. A fetch that is not admitted aborts with
(pc, 4, pc) and changes nothing else; a fetch inside a device region runs the word drawn there. -/
def Obligations.FetchIsBoundsChecked : Prop :=
  ∀ s : State, s.run = .running →
    (InPmem s s.pc 4 →
      step s = exec (decodeWord (s.byteAt (s.pc.toNat + 3) ++ s.byteAt (s.pc.toNat + 2) ++
        s.byteAt (s.pc.toNat + 1) ++ s.byteAt s.pc.toNat)) s) ∧
    (InDevice s s.pc 4 →
      step s = exec (decodeWord (Config.devDraw s.draws)) { s with draws := s.draws + 1 }) ∧
    (OutOfBounds s s.pc 4 → ∃ t, step s = .next t ∧ OnlyAborts s t (.outOfBounds s.pc 4 s.pc))

/-- R265: from Ended and Aborted there is no step, and the host's `step^N` gives no new state. -/
def Obligations.NoStepOnceTheRunIsOver : Prop :=
  ∀ (s : State) (n : Nat), s.run ≠ .running → (∃ why, step s = .fault why) ∧ hostSteps n s = .next s

/-- R12: a step from Running always has an outcome that is a state: it never refuses and never gets stuck. -/
def Obligations.EveryRunningStepCompletes : Prop :=
  ∀ s : State, s.run = .running → ∃ t, step s = .next t

/-! ## What every step keeps -/

/-- Every step keeps the invariant: legal parameters, register 0 clear (R31), memory in canonical form and inside
`pmem` (R61), and `pc` where the run state puts it (R231, R253). -/
def Obligations.StepKeepsInvariant : Prop :=
  ∀ s t : State, s.Inv → step s = .next t → t.Inv

/-- The invariant holds after reset, for the defaults and for every legal choice of parameters. The mstatus reset value
and the empty memory are the model's choices (log 2, log 4). -/
def Obligations.ResetMeetsInvariant : Prop :=
  State.reset.Inv ∧ ∀ c : Config, c.wf → (State.resetWith c).Inv

/-- The host's operations keep the invariant: loading an image and reading a word (R266, R283). -/
def Obligations.HostOperationsKeepInvariant : Prop :=
  (∀ (c : Config) (image : List Segment) (t : State), c.wf → hostReset c image = .next t → t.Inv) ∧
  ∀ (s : State) (a : Word), s.Inv → (hostRead a s).2.Inv

/-- The parameters are fixed (R8): no step changes them. -/
def Obligations.StepKeepsParameters : Prop :=
  ∀ s t : State, step s = .next t → t.cfg = s.cfg

/-- R253: a step that ends Aborted keeps every general register, CSR and memory byte and the pc, shows no event, and
no step follows it. -/
def Obligations.FatalStepsChangeNothing : Prop :=
  ∀ (s t : State) (why : Abort), step s = .next t → t.run = .aborted why →
    t.regs = s.regs ∧ t.pc = s.pc ∧ t.csrs = s.csrs ∧ KeepsMem s t ∧ t.cfg = s.cfg ∧ t.events = s.events ∧
    step t = .fault (.aborted why)

/-- R31: register 0 reads as zero after every instruction that does not end Aborted, whether or not it wrote it; and
an instruction that does leaves a clear register 0 clear. -/
def Obligations.RegisterZeroReadsZero : Prop :=
  ∀ (i : Instr) (s t : State), exec i s = .next t →
    ((∀ why, t.run ≠ .aborted why) → t.reg 0#5 = 0#32) ∧ (s.reg 0#5 = 0#32 → t.reg 0#5 = 0#32)

/-- R32, R117: an instruction writes no general register but its destination; stores, branches, ECALL, EBREAK, MRET and
`inv` write none. -/
def Obligations.OnlyTheDestinationIsWritten : Prop :=
  ∀ (i : Instr) (s t : State) (r : RegIdx), exec i s = .next t → r ≠ 0#5 → destination i ≠ some r →
    t.reg r = s.reg r

/-- R39, R254: only CSRRW, CSRRS and ECALL change a CSR; with the reference handler only a CSR instruction that
addresses it changes `mstatus`. -/
def Obligations.CsrsChangeOnlyByCsrInstructionsAndEcall : Prop :=
  ∀ (i : Instr) (s t : State), exec i s = .next t →
    (canWriteCsr i = false → t.csrs = s.csrs) ∧
    (s.cfg.trapHandler = .reference → addressesMstatus i = false → t.csrs.mstatus = s.csrs.mstatus)

/-- R70, R254: only a store changes memory; every other instruction leaves every byte as it was. -/
def Obligations.OnlyStoresChangeMemory : Prop :=
  ∀ (i : Instr) (s t : State), exec i s = .next t → isStore i = false → KeepsMem s t

/-- R62, R222: the output record is never read. Running an instruction over another record gives the same state but
for that record, with the same new events at its end. -/
def Obligations.OutputsAreNeverRead : Prop :=
  ∀ (i : Instr) (s t : State) (other : List Event), exec i s = .next t →
    ∃ new, t.events = s.events ++ new ∧
      exec i { s with events := other } = .next { t with events := other ++ new }

/-- R282: with the reference handler, the value of `mstatus` affects nothing but CSR instructions that address 0x300:
any other instruction gives the same state but for that value. -/
def Obligations.MstatusAffectsNothingElse : Prop :=
  ∀ (i : Instr) (s t : State) (v : Word), s.cfg.trapHandler = .reference → addressesMstatus i = false →
    exec i s = .next t →
    exec i { s with csrs := { s.csrs with mstatus := v } } = .next { t with csrs := { t.csrs with mstatus := v } }

/-! ## Integer arithmetic, logic, shifts and comparisons -/

/-- R131, R132: LUI and AUIPC: encoding, result, frame; no exception in any state. -/
def Obligations.UpperImmediates : Prop :=
  ∀ (rd : RegIdx) (imm : BitVec 20) (s : State),
    decodeWord (imm ++ rd ++ 0b0110111#7) = .lui rd imm ∧
    decodeWord (imm ++ rd ++ 0b0010111#7) = .auipc rd imm ∧
    (∃ t, exec (.lui rd imm) s = .next t ∧ OnlyWrites s t rd (imm ++ 0#12) (s.pc + 4#32)) ∧
    (∃ t, exec (.auipc rd imm) s = .next t ∧ OnlyWrites s t rd (s.pc + (imm ++ 0#12)) (s.pc + 4#32))

/-- R133, R136, R137, R138: ADDI, XORI, ORI, ANDI: encoding, result, frame; no exception in any state. -/
def Obligations.AddAndLogicImmediates : Prop :=
  ∀ (rd rs1 : RegIdx) (imm : BitVec 12) (s : State),
    decodeWord (imm ++ rs1 ++ 0b000#3 ++ rd ++ 0b0010011#7) = .addi rd rs1 imm ∧
    decodeWord (imm ++ rs1 ++ 0b100#3 ++ rd ++ 0b0010011#7) = .xori rd rs1 imm ∧
    decodeWord (imm ++ rs1 ++ 0b110#3 ++ rd ++ 0b0010011#7) = .ori rd rs1 imm ∧
    decodeWord (imm ++ rs1 ++ 0b111#3 ++ rd ++ 0b0010011#7) = .andi rd rs1 imm ∧
    (∃ t, exec (.addi rd rs1 imm) s = .next t ∧
      OnlyWrites s t rd (s.reg rs1 + imm.signExtend 32) (s.pc + 4#32)) ∧
    (∃ t, exec (.xori rd rs1 imm) s = .next t ∧
      OnlyWrites s t rd (s.reg rs1 ^^^ imm.signExtend 32) (s.pc + 4#32)) ∧
    (∃ t, exec (.ori rd rs1 imm) s = .next t ∧
      OnlyWrites s t rd (s.reg rs1 ||| imm.signExtend 32) (s.pc + 4#32)) ∧
    (∃ t, exec (.andi rd rs1 imm) s = .next t ∧
      OnlyWrites s t rd (s.reg rs1 &&& imm.signExtend 32) (s.pc + 4#32))

/-- R134, R135: SLTI and SLTIU: encoding, result, frame; no exception in any state. -/
def Obligations.SetLessThanImmediates : Prop :=
  ∀ (rd rs1 : RegIdx) (imm : BitVec 12) (s : State),
    decodeWord (imm ++ rs1 ++ 0b010#3 ++ rd ++ 0b0010011#7) = .slti rd rs1 imm ∧
    decodeWord (imm ++ rs1 ++ 0b011#3 ++ rd ++ 0b0010011#7) = .sltiu rd rs1 imm ∧
    (∃ t, exec (.slti rd rs1 imm) s = .next t ∧
      OnlyWrites s t rd (if (s.reg rs1).toInt < imm.toInt then 1#32 else 0#32) (s.pc + 4#32)) ∧
    (∃ t, exec (.sltiu rd rs1 imm) s = .next t ∧
      OnlyWrites s t rd (if (s.reg rs1).toNat < (imm.signExtend 32).toNat then 1#32 else 0#32) (s.pc + 4#32))

/-- R139, R140, R141: SLLI, SRLI, SRAI: encoding; result as a multiplication or a floor division by a power of two,
frame; no exception in any state. The amount is the field, or, with SHAMT_SOURCE = register (R103), the low 5 bits of
the register the field names. Any other funct7 is invalid. -/
def Obligations.ShiftsByImmediate : Prop :=
  ∀ (rd rs1 : RegIdx) (k : BitVec 5) (s : State),
    let n := if s.cfg.shamtSource = .field then k.toNat else (s.reg k).toNat % 32
    decodeWord (0b0000000#7 ++ k ++ rs1 ++ 0b001#3 ++ rd ++ 0b0010011#7) = .slli rd rs1 k ∧
    decodeWord (0b0000000#7 ++ k ++ rs1 ++ 0b101#3 ++ rd ++ 0b0010011#7) = .srli rd rs1 k ∧
    decodeWord (0b0100000#7 ++ k ++ rs1 ++ 0b101#3 ++ rd ++ 0b0010011#7) = .srai rd rs1 k ∧
    (∀ f7 : BitVec 7, f7 ≠ 0b0000000#7 →
      decodeWord (f7 ++ k ++ rs1 ++ 0b001#3 ++ rd ++ 0b0010011#7) =
        .inv (f7 ++ k ++ rs1 ++ 0b001#3 ++ rd ++ 0b0010011#7)) ∧
    (∀ f7 : BitVec 7, f7 ≠ 0b0000000#7 → f7 ≠ 0b0100000#7 →
      decodeWord (f7 ++ k ++ rs1 ++ 0b101#3 ++ rd ++ 0b0010011#7) =
        .inv (f7 ++ k ++ rs1 ++ 0b101#3 ++ rd ++ 0b0010011#7)) ∧
    (∃ t, exec (.slli rd rs1 k) s = .next t ∧
      OnlyWrites s t rd (BitVec.ofNat 32 ((s.reg rs1).toNat * 2 ^ n)) (s.pc + 4#32)) ∧
    (∃ t, exec (.srli rd rs1 k) s = .next t ∧
      OnlyWrites s t rd (BitVec.ofNat 32 ((s.reg rs1).toNat / 2 ^ n)) (s.pc + 4#32)) ∧
    (∃ t, exec (.srai rd rs1 k) s = .next t ∧
      OnlyWrites s t rd (BitVec.ofInt 32 ((s.reg rs1).toInt / 2 ^ n)) (s.pc + 4#32))

/-- R142, R143: ADD and SUB: encoding, result modulo 2^32, frame; no exception in any state. -/
def Obligations.AddAndSubtract : Prop :=
  ∀ (rd rs1 rs2 : RegIdx) (s : State),
    decodeWord (0b0000000#7 ++ rs2 ++ rs1 ++ 0b000#3 ++ rd ++ 0b0110011#7) = .add rd rs1 rs2 ∧
    decodeWord (0b0100000#7 ++ rs2 ++ rs1 ++ 0b000#3 ++ rd ++ 0b0110011#7) = .sub rd rs1 rs2 ∧
    (∃ t, exec (.add rd rs1 rs2) s = .next t ∧
      OnlyWrites s t rd (BitVec.ofNat 32 ((s.reg rs1).toNat + (s.reg rs2).toNat)) (s.pc + 4#32)) ∧
    (∃ t, exec (.sub rd rs1 rs2) s = .next t ∧
      OnlyWrites s t rd (BitVec.ofInt 32 (((s.reg rs1).toNat : Int) - ((s.reg rs2).toNat : Int))) (s.pc + 4#32))

/-- R144, R148, R149: SLL, SRL, SRA: encoding, result with the amount modulo 32, frame; no exception in any state. -/
def Obligations.ShiftsByRegister : Prop :=
  ∀ (rd rs1 rs2 : RegIdx) (s : State),
    decodeWord (0b0000000#7 ++ rs2 ++ rs1 ++ 0b001#3 ++ rd ++ 0b0110011#7) = .sll rd rs1 rs2 ∧
    decodeWord (0b0000000#7 ++ rs2 ++ rs1 ++ 0b101#3 ++ rd ++ 0b0110011#7) = .srl rd rs1 rs2 ∧
    decodeWord (0b0100000#7 ++ rs2 ++ rs1 ++ 0b101#3 ++ rd ++ 0b0110011#7) = .sra rd rs1 rs2 ∧
    (∃ t, exec (.sll rd rs1 rs2) s = .next t ∧
      OnlyWrites s t rd (BitVec.ofNat 32 ((s.reg rs1).toNat * 2 ^ ((s.reg rs2).toNat % 32))) (s.pc + 4#32)) ∧
    (∃ t, exec (.srl rd rs1 rs2) s = .next t ∧
      OnlyWrites s t rd (BitVec.ofNat 32 ((s.reg rs1).toNat / 2 ^ ((s.reg rs2).toNat % 32))) (s.pc + 4#32)) ∧
    (∃ t, exec (.sra rd rs1 rs2) s = .next t ∧
      OnlyWrites s t rd (BitVec.ofInt 32 ((s.reg rs1).toInt / 2 ^ ((s.reg rs2).toNat % 32))) (s.pc + 4#32))

/-- R145, R146: SLT and SLTU: encoding, result, frame; no exception in any state. -/
def Obligations.SetLessThan : Prop :=
  ∀ (rd rs1 rs2 : RegIdx) (s : State),
    decodeWord (0b0000000#7 ++ rs2 ++ rs1 ++ 0b010#3 ++ rd ++ 0b0110011#7) = .slt rd rs1 rs2 ∧
    decodeWord (0b0000000#7 ++ rs2 ++ rs1 ++ 0b011#3 ++ rd ++ 0b0110011#7) = .sltu rd rs1 rs2 ∧
    (∃ t, exec (.slt rd rs1 rs2) s = .next t ∧
      OnlyWrites s t rd (if (s.reg rs1).toInt < (s.reg rs2).toInt then 1#32 else 0#32) (s.pc + 4#32)) ∧
    (∃ t, exec (.sltu rd rs1 rs2) s = .next t ∧
      OnlyWrites s t rd (if (s.reg rs1).toNat < (s.reg rs2).toNat then 1#32 else 0#32) (s.pc + 4#32))

/-- R147, R150, R151: XOR, OR, AND: encoding, result, frame; no exception in any state. -/
def Obligations.LogicOfRegisters : Prop :=
  ∀ (rd rs1 rs2 : RegIdx) (s : State),
    decodeWord (0b0000000#7 ++ rs2 ++ rs1 ++ 0b100#3 ++ rd ++ 0b0110011#7) = .xor rd rs1 rs2 ∧
    decodeWord (0b0000000#7 ++ rs2 ++ rs1 ++ 0b110#3 ++ rd ++ 0b0110011#7) = .or rd rs1 rs2 ∧
    decodeWord (0b0000000#7 ++ rs2 ++ rs1 ++ 0b111#3 ++ rd ++ 0b0110011#7) = .and rd rs1 rs2 ∧
    (∃ t, exec (.xor rd rs1 rs2) s = .next t ∧ OnlyWrites s t rd (s.reg rs1 ^^^ s.reg rs2) (s.pc + 4#32)) ∧
    (∃ t, exec (.or rd rs1 rs2) s = .next t ∧ OnlyWrites s t rd (s.reg rs1 ||| s.reg rs2) (s.pc + 4#32)) ∧
    (∃ t, exec (.and rd rs1 rs2) s = .next t ∧ OnlyWrites s t rd (s.reg rs1 &&& s.reg rs2) (s.pc + 4#32))

/-! ## Multiply and divide -/

/-- R171 to R174: MUL gives bits 31:0 of the 64-bit product, the same for operands read as unsigned or signed; MULH,
MULHSU and MULHU give bits 63:32 of the product of the operands extended as each says; encoding, frame; no exception in
any state. -/
def Obligations.Multiplications : Prop :=
  ∀ (rd rs1 rs2 : RegIdx) (s : State),
    decodeWord (0b0000001#7 ++ rs2 ++ rs1 ++ 0b000#3 ++ rd ++ 0b0110011#7) = .mul rd rs1 rs2 ∧
    decodeWord (0b0000001#7 ++ rs2 ++ rs1 ++ 0b001#3 ++ rd ++ 0b0110011#7) = .mulh rd rs1 rs2 ∧
    decodeWord (0b0000001#7 ++ rs2 ++ rs1 ++ 0b010#3 ++ rd ++ 0b0110011#7) = .mulhsu rd rs1 rs2 ∧
    decodeWord (0b0000001#7 ++ rs2 ++ rs1 ++ 0b011#3 ++ rd ++ 0b0110011#7) = .mulhu rd rs1 rs2 ∧
    (∃ t, exec (.mul rd rs1 rs2) s = .next t ∧
      OnlyWrites s t rd (((s.reg rs1).setWidth 64 * (s.reg rs2).setWidth 64).extractLsb' 0 32) (s.pc + 4#32) ∧
      OnlyWrites s t rd (((s.reg rs1).signExtend 64 * (s.reg rs2).signExtend 64).extractLsb' 0 32) (s.pc + 4#32)) ∧
    (∃ t, exec (.mulh rd rs1 rs2) s = .next t ∧
      OnlyWrites s t rd (((s.reg rs1).signExtend 64 * (s.reg rs2).signExtend 64).extractLsb' 32 32) (s.pc + 4#32)) ∧
    (∃ t, exec (.mulhsu rd rs1 rs2) s = .next t ∧
      OnlyWrites s t rd (((s.reg rs1).signExtend 64 * (s.reg rs2).setWidth 64).extractLsb' 32 32) (s.pc + 4#32)) ∧
    (∃ t, exec (.mulhu rd rs1 rs2) s = .next t ∧
      OnlyWrites s t rd (((s.reg rs1).setWidth 64 * (s.reg rs2).setWidth 64).extractLsb' 32 32) (s.pc + 4#32))

/-- R175, R177, R179: DIV and REM: encoding; the value rounded toward zero, the RISC-V values at the corners, frame;
with DIV_CORNER = fault a corner is fatal and writes nothing. -/
def Obligations.SignedDivision : Prop :=
  ∀ (rd rs1 rs2 : RegIdx) (s : State),
    decodeWord (0b0000001#7 ++ rs2 ++ rs1 ++ 0b100#3 ++ rd ++ 0b0110011#7) = .div rd rs1 rs2 ∧
    decodeWord (0b0000001#7 ++ rs2 ++ rs1 ++ 0b110#3 ++ rd ++ 0b0110011#7) = .rem rd rs1 rs2 ∧
    (let a := s.reg rs1
     let b := s.reg rs2
     let byZero := b = 0#32
     let overflow := a = 0x80000000#32 ∧ b = 0xFFFFFFFF#32
     (¬ (s.cfg.divCorner = .fault ∧ (byZero ∨ overflow)) →
       (∃ t q, exec (.div rd rs1 rs2) s = .next t ∧ OnlyWrites s t rd q (s.pc + 4#32) ∧
         (byZero → q = 0xFFFFFFFF#32) ∧ (overflow → q = 0x80000000#32) ∧
         (¬ byZero ∧ ¬ overflow → q.toInt = a.toInt.tdiv b.toInt)) ∧
       (∃ t r, exec (.rem rd rs1 rs2) s = .next t ∧ OnlyWrites s t rd r (s.pc + 4#32) ∧
         (byZero → r = a) ∧ (overflow → r = 0#32) ∧
         (¬ byZero ∧ ¬ overflow → r.toInt = a.toInt.tmod b.toInt))) ∧
     (s.cfg.divCorner = .fault ∧ (byZero ∨ overflow) →
       (∃ t, exec (.div rd rs1 rs2) s = .next t ∧ OnlyAborts s t (.divideCorner s.pc)) ∧
       (∃ t, exec (.rem rd rs1 rs2) s = .next t ∧ OnlyAborts s t (.divideCorner s.pc))))

/-- R176, R178, R179: DIVU and REMU: encoding; quotient and remainder of the unsigned values, the RISC-V values for a
zero divisor, frame; with DIV_CORNER = fault a zero divisor is fatal and writes nothing. -/
def Obligations.UnsignedDivision : Prop :=
  ∀ (rd rs1 rs2 : RegIdx) (s : State),
    decodeWord (0b0000001#7 ++ rs2 ++ rs1 ++ 0b101#3 ++ rd ++ 0b0110011#7) = .divu rd rs1 rs2 ∧
    decodeWord (0b0000001#7 ++ rs2 ++ rs1 ++ 0b111#3 ++ rd ++ 0b0110011#7) = .remu rd rs1 rs2 ∧
    (let a := s.reg rs1
     let b := s.reg rs2
     (¬ (s.cfg.divCorner = .fault ∧ b = 0#32) →
       (∃ t q, exec (.divu rd rs1 rs2) s = .next t ∧ OnlyWrites s t rd q (s.pc + 4#32) ∧
         (b = 0#32 → q = 0xFFFFFFFF#32) ∧ (b ≠ 0#32 → q.toNat = a.toNat / b.toNat)) ∧
       (∃ t r, exec (.remu rd rs1 rs2) s = .next t ∧ OnlyWrites s t rd r (s.pc + 4#32) ∧
         (b = 0#32 → r = a) ∧ (b ≠ 0#32 → r.toNat = a.toNat % b.toNat))) ∧
     (s.cfg.divCorner = .fault ∧ b = 0#32 →
       (∃ t, exec (.divu rd rs1 rs2) s = .next t ∧ OnlyAborts s t (.divideCorner s.pc)) ∧
       (∃ t, exec (.remu rd rs1 rs2) s = .next t ∧ OnlyAborts s t (.divideCorner s.pc))))

/-- R170: quotient and remainder satisfy `src1 = trunc32(q * src2 + r)`, signed and unsigned, the corners among them,
and a signed remainder that is not zero has the sign of the dividend. -/
def Obligations.QuotientAndRemainderRebuildTheDividend : Prop :=
  ∀ (rd rs1 rs2 : RegIdx) (s : State), s.cfg.divCorner = .riscv → rd ≠ 0#5 →
    (∃ t u, exec (.div rd rs1 rs2) s = .next t ∧ exec (.rem rd rs1 rs2) s = .next u ∧
      s.reg rs1 = t.reg rd * s.reg rs2 + u.reg rd ∧
      (u.reg rd ≠ 0#32 → ((u.reg rd).toInt < 0 ↔ (s.reg rs1).toInt < 0))) ∧
    (∃ t u, exec (.divu rd rs1 rs2) s = .next t ∧ exec (.remu rd rs1 rs2) s = .next u ∧
      s.reg rs1 = t.reg rd * s.reg rs2 + u.reg rd)

/-! ## Loads and stores -/

/-- R191, R194: LB and LBU at `src1 + imm`: encoding; in `pmem` the byte there, extended by its sign or by zeros; not
admitted, fatal and nothing written. Device regions: `DeviceLoads`. -/
def Obligations.ByteLoads : Prop :=
  ∀ (rd rs1 : RegIdx) (imm : BitVec 12) (s : State),
    let ea := s.reg rs1 + imm.signExtend 32
    decodeWord (imm ++ rs1 ++ 0b000#3 ++ rd ++ 0b0000011#7) = .lb rd rs1 imm ∧
    decodeWord (imm ++ rs1 ++ 0b100#3 ++ rd ++ 0b0000011#7) = .lbu rd rs1 imm ∧
    (InPmem s ea 1 →
      (∃ t, exec (.lb rd rs1 imm) s = .next t ∧
        OnlyWrites s t rd ((s.byteAt ea.toNat).signExtend 32) (s.pc + 4#32)) ∧
      (∃ t, exec (.lbu rd rs1 imm) s = .next t ∧
        OnlyWrites s t rd ((s.byteAt ea.toNat).setWidth 32) (s.pc + 4#32))) ∧
    (OutOfBounds s ea 1 →
      (∃ t, exec (.lb rd rs1 imm) s = .next t ∧ OnlyAborts s t (.outOfBounds ea 1 s.pc)) ∧
      (∃ t, exec (.lbu rd rs1 imm) s = .next t ∧ OnlyAborts s t (.outOfBounds ea 1 s.pc)))

/-- R192, R195: LH and LHU at `src1 + imm`, aligned or not: encoding; in `pmem` the two bytes there, little-endian,
extended by their sign or by zeros; not admitted, fatal and nothing written. Device regions: `DeviceLoads`. -/
def Obligations.HalfwordLoads : Prop :=
  ∀ (rd rs1 : RegIdx) (imm : BitVec 12) (s : State),
    let ea := s.reg rs1 + imm.signExtend 32
    let half : BitVec 16 := s.byteAt (ea.toNat + 1) ++ s.byteAt ea.toNat
    decodeWord (imm ++ rs1 ++ 0b001#3 ++ rd ++ 0b0000011#7) = .lh rd rs1 imm ∧
    decodeWord (imm ++ rs1 ++ 0b101#3 ++ rd ++ 0b0000011#7) = .lhu rd rs1 imm ∧
    (InPmem s ea 2 →
      (∃ t, exec (.lh rd rs1 imm) s = .next t ∧ OnlyWrites s t rd (half.signExtend 32) (s.pc + 4#32)) ∧
      (∃ t, exec (.lhu rd rs1 imm) s = .next t ∧ OnlyWrites s t rd (half.setWidth 32) (s.pc + 4#32))) ∧
    (OutOfBounds s ea 2 →
      (∃ t, exec (.lh rd rs1 imm) s = .next t ∧ OnlyAborts s t (.outOfBounds ea 2 s.pc)) ∧
      (∃ t, exec (.lhu rd rs1 imm) s = .next t ∧ OnlyAborts s t (.outOfBounds ea 2 s.pc)))

/-- R193: LW at `src1 + imm`, aligned or not: encoding; in `pmem` the four bytes there, little-endian; not admitted,
fatal and nothing written. Device regions: `DeviceLoads`. -/
def Obligations.WordLoads : Prop :=
  ∀ (rd rs1 : RegIdx) (imm : BitVec 12) (s : State),
    let ea := s.reg rs1 + imm.signExtend 32
    decodeWord (imm ++ rs1 ++ 0b010#3 ++ rd ++ 0b0000011#7) = .lw rd rs1 imm ∧
    (InPmem s ea 4 → ∃ t, exec (.lw rd rs1 imm) s = .next t ∧
      OnlyWrites s t rd (s.byteAt (ea.toNat + 3) ++ s.byteAt (ea.toNat + 2) ++ s.byteAt (ea.toNat + 1) ++
        s.byteAt ea.toNat) (s.pc + 4#32)) ∧
    (OutOfBounds s ea 4 → ∃ t, exec (.lw rd rs1 imm) s = .next t ∧ OnlyAborts s t (.outOfBounds ea 4 s.pc))

/-- R62, R70: a load in a device region takes the next draw, cut to its width and extended as the load says; the read
is counted, also with `rd = 0` (R199); nothing else changes. The counter is the model's (log 5). -/
def Obligations.DeviceLoads : Prop :=
  ∀ (rd rs1 : RegIdx) (imm : BitVec 12) (s : State),
    let ea := s.reg rs1 + imm.signExtend 32
    let d := Config.devDraw s.draws
    let loads (i : Instr) (v : Word) : Prop := ∃ t, exec i s = .next t ∧
      OnlyWrites { s with draws := s.draws + 1 } t rd v (s.pc + 4#32)
    (InDevice s ea 1 → loads (.lb rd rs1 imm) ((d.extractLsb' 0 8).signExtend 32) ∧
      loads (.lbu rd rs1 imm) ((d.extractLsb' 0 8).setWidth 32)) ∧
    (InDevice s ea 2 → loads (.lh rd rs1 imm) ((d.extractLsb' 0 16).signExtend 32) ∧
      loads (.lhu rd rs1 imm) ((d.extractLsb' 0 16).setWidth 32)) ∧
    (InDevice s ea 4 → loads (.lw rd rs1 imm) d)

/-- R196, R197, R198: SB, SH and SW at `src1 + imm`, aligned or not: encoding; in `pmem` exactly the stored bytes
change, byte k of them to bits 8k+7:8k of `x[rs2]`; not admitted, fatal and no byte written. Registers, CSRs and the
rest are unchanged. Device regions: `DeviceStores`. -/
def Obligations.Stores : Prop :=
  ∀ (rs2 rs1 : RegIdx) (imm : BitVec 12) (s : State),
    let ea := s.reg rs1 + imm.signExtend 32
    let stores (i : Instr) (n : Nat) : Prop :=
      (InPmem s ea n → ∃ t, exec i s = .next t ∧
        (∀ a, t.byteAt a = if ea.toNat ≤ a ∧ a < ea.toNat + n
          then (s.reg rs2).extractLsb' (8 * (a - ea.toNat)) 8 else s.byteAt a) ∧
        KeepsRegs s t ∧ t.pc = s.pc + 4#32 ∧ t.csrs = s.csrs ∧ KeepsRest s t) ∧
      (OutOfBounds s ea n → ∃ t, exec i s = .next t ∧ OnlyAborts s t (.outOfBounds ea n s.pc))
    decodeWord (imm.extractLsb' 5 7 ++ rs2 ++ rs1 ++ 0b000#3 ++ imm.extractLsb' 0 5 ++ 0b0100011#7) =
      .sb rs2 rs1 imm ∧
    decodeWord (imm.extractLsb' 5 7 ++ rs2 ++ rs1 ++ 0b001#3 ++ imm.extractLsb' 0 5 ++ 0b0100011#7) =
      .sh rs2 rs1 imm ∧
    decodeWord (imm.extractLsb' 5 7 ++ rs2 ++ rs1 ++ 0b010#3 ++ imm.extractLsb' 0 5 ++ 0b0100011#7) =
      .sw rs2 rs1 imm ∧
    stores (.sb rs2 rs1 imm) 1 ∧ stores (.sh rs2 rs1 imm) 2 ∧ stores (.sw rs2 rs1 imm) 4

/-- R62: a store in a device region is an event with the address, the width and the stored bits, and changes no engine
state: no memory byte, register or CSR. The record and the cut of the value to its width are the model's (log 6,
log 17). -/
def Obligations.DeviceStores : Prop :=
  ∀ (rs2 rs1 : RegIdx) (imm : BitVec 12) (s : State),
    let ea := s.reg rs1 + imm.signExtend 32
    let v := s.reg rs2
    let shows (i : Instr) (e : Event) : Prop := ∃ t, exec i s = .next t ∧ t.events = s.events ++ [e] ∧
      KeepsMem s t ∧ KeepsRegs s t ∧ t.pc = s.pc + 4#32 ∧ t.csrs = s.csrs ∧ t.run = s.run ∧ t.cfg = s.cfg ∧
      t.draws = s.draws
    (InDevice s ea 1 → shows (.sb rs2 rs1 imm) (.devWrite ea 1 ((v.extractLsb' 0 8).setWidth 32))) ∧
    (InDevice s ea 2 → shows (.sh rs2 rs1 imm) (.devWrite ea 2 ((v.extractLsb' 0 16).setWidth 32))) ∧
    (InDevice s ea 4 → shows (.sw rs2 rs1 imm) (.devWrite ea 4 v))

/-- R81: a load of the same size at the same address right after a store gives the stored value: whole for LW after
SW, zero-extended for LHU after SH and LBU after SB, sign-extended for LH after SH and LB after SB. -/
def Obligations.StoreThenLoadRoundTrip : Prop :=
  ∀ (rs2 rs1 rd r : RegIdx) (imm imm2 : BitVec 12) (s : State),
    let ea := s.reg rs1 + imm.signExtend 32
    let v := s.reg rs2
    rd ≠ 0#5 → s.reg 0#5 = 0#32 → s.reg r + imm2.signExtend 32 = ea →
    (InPmem s ea 4 → ∃ t u, exec (.sw rs2 rs1 imm) s = .next t ∧ exec (.lw rd r imm2) t = .next u ∧
      u.reg rd = v) ∧
    (InPmem s ea 2 → ∃ t u w, exec (.sh rs2 rs1 imm) s = .next t ∧ exec (.lhu rd r imm2) t = .next u ∧
      exec (.lh rd r imm2) t = .next w ∧
      u.reg rd = (v.extractLsb' 0 16).setWidth 32 ∧ w.reg rd = (v.extractLsb' 0 16).signExtend 32) ∧
    (InPmem s ea 1 → ∃ t u w, exec (.sb rs2 rs1 imm) s = .next t ∧ exec (.lbu rd r imm2) t = .next u ∧
      exec (.lb rd r imm2) t = .next w ∧
      u.reg rd = (v.extractLsb' 0 8).setWidth 32 ∧ w.reg rd = (v.extractLsb' 0 8).signExtend 32)

/-- R75: a store over the word right after it takes effect at the very next step: that step runs the stored word. -/
def Obligations.StoreIsSeenByTheNextFetch : Prop :=
  ∀ (rs2 rs1 : RegIdx) (imm : BitVec 12) (s : State), s.run = .running →
    s.reg rs1 + imm.signExtend 32 = s.pc + 4#32 → InPmem s (s.pc + 4#32) 4 →
    ∃ t, exec (.sw rs2 rs1 imm) s = .next t ∧ step t = exec (decodeWord (s.reg rs2)) t

/-! ## Control transfer -/

/-- R210 to R216: the six branches: encoding; `pc + imm` when the comparison holds, else `pc + 4`; no register, CSR,
memory byte or event changes; no exception in any state. -/
def Obligations.Branches : Prop :=
  ∀ (rs1 rs2 : RegIdx) (h : BitVec 12) (s : State),
    let off : BitVec 13 := h ++ 0#1
    let word (f3 : BitVec 3) : Word := h.extractLsb' 11 1 ++ h.extractLsb' 4 6 ++ rs2 ++ rs1 ++ f3 ++
      h.extractLsb' 0 4 ++ h.extractLsb' 10 1 ++ 0b1100011#7
    let a := s.reg rs1
    let b := s.reg rs2
    let goes (i : Instr) (c : Prop) : Prop := ∃ t, exec i s = .next t ∧
      (c → OnlyGoesTo s t (s.pc + off.signExtend 32)) ∧ (¬ c → OnlyGoesTo s t (s.pc + 4#32))
    decodeWord (word 0b000#3) = .beq rs1 rs2 off ∧ goes (.beq rs1 rs2 off) (a = b) ∧
    decodeWord (word 0b001#3) = .bne rs1 rs2 off ∧ goes (.bne rs1 rs2 off) (a ≠ b) ∧
    decodeWord (word 0b100#3) = .blt rs1 rs2 off ∧ goes (.blt rs1 rs2 off) (a.toInt < b.toInt) ∧
    decodeWord (word 0b101#3) = .bge rs1 rs2 off ∧ goes (.bge rs1 rs2 off) (b.toInt ≤ a.toInt) ∧
    decodeWord (word 0b110#3) = .bltu rs1 rs2 off ∧ goes (.bltu rs1 rs2 off) (a.toNat < b.toNat) ∧
    decodeWord (word 0b111#3) = .bgeu rs1 rs2 off ∧ goes (.bgeu rs1 rs2 off) (b.toNat ≤ a.toNat)

/-- R217, R218, R222: JAL and JALR: encoding; the link `pc + 4` and the target; JALR uses the old `x[rs1]` and clears bit 0
of its target, and no other funct3 is valid; nothing else changes but the output record, the model's own (log 6), which
gets the trace event that R222 classifies; no exception in any state. -/
def Obligations.JumpsLinkAndTrace : Prop :=
  ∀ (rd rs1 : RegIdx) (h : BitVec 20) (imm : BitVec 12) (s : State),
    let off : BitVec 21 := h ++ 0#1
    let near := s.pc + off.signExtend 32
    let far := ((s.reg rs1 + imm.signExtend 32).extractLsb' 1 31 ++ 0#1 : Word)
    decodeWord (h.extractLsb' 19 1 ++ h.extractLsb' 0 10 ++ h.extractLsb' 10 1 ++ h.extractLsb' 11 8 ++ rd ++
      0b1101111#7) = .jal rd off ∧
    decodeWord (imm ++ rs1 ++ 0b000#3 ++ rd ++ 0b1100111#7) = .jalr rd rs1 imm ∧
    (∀ f3 : BitVec 3, f3 ≠ 0b000#3 → decodeWord (imm ++ rs1 ++ f3 ++ rd ++ 0b1100111#7) =
      .inv (imm ++ rs1 ++ f3 ++ rd ++ 0b1100111#7)) ∧
    (∃ t, exec (.jal rd off) s = .next t ∧ WritesReg s t rd (s.pc + 4#32) ∧ t.pc = near ∧
      t.events = s.events ++ (if rd = 0#5 then [] else [.call s.pc near]) ∧
      t.csrs = s.csrs ∧ KeepsMem s t ∧ t.run = s.run ∧ t.cfg = s.cfg ∧ t.draws = s.draws) ∧
    (∃ t, exec (.jalr rd rs1 imm) s = .next t ∧ WritesReg s t rd (s.pc + 4#32) ∧ t.pc = far ∧
      t.events = s.events ++ [if rd = 0#5 ∧ rs1 = s.cfg.raReg then .ret s.pc else .call s.pc far] ∧
      t.csrs = s.csrs ∧ KeepsMem s t ∧ t.run = s.run ∧ t.cfg = s.cfg ∧ t.draws = s.draws)

/-! ## System, traps and CSRs -/

/-- R230, R254, R255: ECALL: encoding; it calls the handler with `x[SYSCALL_NO_REG]` and its own address, and goes to
the handler's answer. The reference handler sets `mepc` and `mcause` and answers `mtvec`; an external one answers any
CSRs and any address (log 7). Nothing else changes: no general register, no memory byte, not the run state. -/
def Obligations.EcallCallsTheTrapHandler : Prop :=
  decodeWord 0x00000073#32 = .ecall ∧
  ∀ s : State, ∃ t, exec .ecall s = .next t ∧
    (t.csrs, t.pc) = (match s.cfg.trapHandler with
      | .reference => ({ s.csrs with mepc := s.pc, mcause := s.reg s.cfg.syscallNoReg }, s.csrs.mtvec)
      | .external => Config.externalHandler (s.reg s.cfg.syscallNoReg) s.pc s.regs s.csrs s.mem) ∧
    KeepsRegs s t ∧ KeepsMem s t ∧ KeepsRest s t

/-- R231: EBREAK ends the run with its own address and `x[HALT_RET_REG]`; the end-of-step updates still happen; no CSR
is written and nothing goes to `mtvec`; no step follows. -/
def Obligations.EbreakEndsTheRun : Prop :=
  decodeWord 0x00100073#32 = .ebreak ∧
  ∀ s : State, ∃ t, exec .ebreak s = .next t ∧ t.run = .ended s.pc (s.reg s.cfg.haltRetReg) ∧
    t.pc = s.pc + 4#32 ∧ KeepsRegs s t ∧ t.csrs = s.csrs ∧ KeepsMem s t ∧ t.cfg = s.cfg ∧ t.draws = s.draws ∧
    t.events = s.events ∧ step t = .fault (.ended s.pc (s.reg s.cfg.haltRetReg))

/-- R232, R257: MRET goes to `mepc + 4`, at any time and in any state, and changes nothing else. -/
def Obligations.MretReturnsPastTheSavedPc : Prop :=
  decodeWord 0x30200073#32 = .mret ∧
  ∀ s : State, ∃ t, exec .mret s = .next t ∧ OnlyGoesTo s t (s.csrs.mepc + 4#32)

/-- R44, R233, R234: CSRRW: encoding; `x[rd]` gets the old CSR value and the addressed CSR gets `x[rs1]`; at any other
address the read gives 0 and the write is discarded; nothing else changes; no exception in any state. -/
def Obligations.CsrReadAndWrite : Prop :=
  ∀ (rd rs1 : RegIdx) (a : CsrAddr) (s : State),
    decodeWord (a ++ rs1 ++ 0b001#3 ++ rd ++ 0b1110011#7) = .csrrw rd a rs1 ∧
    ∃ t old, exec (.csrrw rd a rs1) s = .next t ∧
      (old = if a = 0x300#12 then s.csrs.mstatus else if a = 0x305#12 then s.csrs.mtvec
        else if a = 0x341#12 then s.csrs.mepc else if a = 0x342#12 then s.csrs.mcause else 0#32) ∧
      WritesReg s t rd old ∧
      t.csrs.mstatus = (if a = 0x300#12 then s.reg rs1 else s.csrs.mstatus) ∧
      t.csrs.mtvec = (if a = 0x305#12 then s.reg rs1 else s.csrs.mtvec) ∧
      t.csrs.mepc = (if a = 0x341#12 then s.reg rs1 else s.csrs.mepc) ∧
      t.csrs.mcause = (if a = 0x342#12 then s.reg rs1 else s.csrs.mcause) ∧
      t.pc = s.pc + 4#32 ∧ KeepsMem s t ∧ KeepsRest s t

/-- R44, R233, R235: CSRRS: encoding; `x[rd]` gets the old CSR value and the addressed CSR gets it OR `x[rs1]`; at any
other address the read gives 0 and the write is discarded; nothing else changes; no exception in any state. -/
def Obligations.CsrReadAndSet : Prop :=
  ∀ (rd rs1 : RegIdx) (a : CsrAddr) (s : State),
    decodeWord (a ++ rs1 ++ 0b010#3 ++ rd ++ 0b1110011#7) = .csrrs rd a rs1 ∧
    ∃ t old, exec (.csrrs rd a rs1) s = .next t ∧
      (old = if a = 0x300#12 then s.csrs.mstatus else if a = 0x305#12 then s.csrs.mtvec
        else if a = 0x341#12 then s.csrs.mepc else if a = 0x342#12 then s.csrs.mcause else 0#32) ∧
      WritesReg s t rd old ∧
      t.csrs.mstatus = (if a = 0x300#12 then old ||| s.reg rs1 else s.csrs.mstatus) ∧
      t.csrs.mtvec = (if a = 0x305#12 then old ||| s.reg rs1 else s.csrs.mtvec) ∧
      t.csrs.mepc = (if a = 0x341#12 then old ||| s.reg rs1 else s.csrs.mepc) ∧
      t.csrs.mcause = (if a = 0x342#12 then old ||| s.reg rs1 else s.csrs.mcause) ∧
      t.pc = s.pc + 4#32 ∧ KeepsMem s t ∧ KeepsRest s t

/-- R245: the catch-all matches exactly the words no earlier row matches, the listed ones among them, and such a word
aborts with its address and itself; nothing else changes. -/
def Obligations.UnmatchedWordsAbort : Prop :=
  invRow.mask = 0#32 ∧ invRow.fixed = 0#32 ∧
  (∀ w : Word, (∀ r ∈ instrRows, r.hits w = false) ↔ decodeWord w = .inv w) ∧
  (∀ w ∈ [0x00000000#32, 0xFFFFFFFF#32, 0x0FF0000F#32, 0x10500073#32, 0x10200073#32, 0x00100473#32],
    decodeWord w = .inv w) ∧
  ∀ (w : Word) (s : State), ∃ t, exec (.inv w) s = .next t ∧ OnlyAborts s t (.invalidInstruction s.pc w)

/-- R256: with the reference handler an ECALL and an MRET right after it return to the instruction after the ECALL,
with every register, byte of memory, `mstatus` and `mtvec` as before. -/
def Obligations.TrapAndReturnResumeAfterTheEcall : Prop :=
  ∀ s : State, s.cfg.trapHandler = .reference → ∃ t u, exec .ecall s = .next t ∧ exec .mret t = .next u ∧
    u.pc = s.pc + 4#32 ∧ KeepsRegs s u ∧ KeepsMem s u ∧ KeepsRest s u ∧
    u.csrs = { s.csrs with mepc := s.pc, mcause := s.reg s.cfg.syscallNoReg }

/-- R289: a CSR write is seen by the next instruction: a read of the same CSR, an ECALL after a write of `mtvec`, an
MRET after a write of `mepc`. -/
def Obligations.CsrWritesTakeEffectAtOnce : Prop :=
  ∀ (rd rs1 : RegIdx) (s : State),
    (rd ≠ 0#5 → ∀ a ∈ [0x300#12, 0x305#12, 0x341#12, 0x342#12],
      (∃ t u, exec (.csrrw 0#5 a rs1) s = .next t ∧ exec (.csrrs rd a 0#5) t = .next u ∧ u.reg rd = s.reg rs1) ∧
      (∃ t u, exec (.csrrs 0#5 a rs1) s = .next t ∧ exec (.csrrs rd a 0#5) t = .next u ∧
        u.reg rd = s.csr a ||| s.reg rs1)) ∧
    (s.cfg.trapHandler = .reference →
      ∃ t u, exec (.csrrw 0#5 0x305#12 rs1) s = .next t ∧ exec .ecall t = .next u ∧ u.pc = s.reg rs1) ∧
    (∃ t u, exec (.csrrw 0#5 0x341#12 rs1) s = .next t ∧ exec .mret t = .next u ∧ u.pc = s.reg rs1 + 4#32)

/-! ## Reset and the host -/

/-- R49: the state after reset, for every choice of parameters, before an image is loaded. The draws are the free
values of log 3 and log 4. -/
def Obligations.ResetValues : Prop :=
  ∀ c : Config,
    (∀ r : RegIdx, (State.resetWith c).reg r =
      if r = 0#5 ∨ c.gprReset = .zero then 0#32 else Config.gprDraw r.toNat) ∧
    (State.resetWith c).pc = c.resetPc ∧
    (State.resetWith c).csrs = { mstatus := c.mstatusReset, mtvec := 0#32, mepc := 0#32, mcause := 0#32 } ∧
    (∀ a, (State.resetWith c).byteAt a = Config.initMem a) ∧
    (State.resetWith c).run = .running

/-- R280, R283: reset with an image, every byte of which lies in `pmem`, leaves the image's bytes there, the INIT_MEM
draws elsewhere (log 4), and every register and CSR at its reset value; where two pieces give the same address the later
one's byte stands (the model's choice, log 21). An image with a byte outside `pmem` is refused, by the first piece that
has one. A piece with no bytes asks for nothing. -/
def Obligations.ResetLoadsTheImage : Prop :=
  ∀ (c : Config) (image : List Segment),
    let inPmem (g : Segment) : Prop :=
      ∀ k, k < g.bytes.length → c.mbase ≤ g.base + k ∧ g.base + k < c.mbase + c.msize
    ((∀ g ∈ image, inPmem g) →
      ∃ t, hostReset c image = .next t ∧
        (∀ a, t.byteAt a =
          match image.reverse.find? (fun g => decide (g.base ≤ a ∧ a < g.base + g.bytes.length)) with
          | some g => g.bytes.getD (a - g.base) 0#8
          | none => Config.initMem a) ∧
        { t with mem := [] } = State.resetWith c) ∧
    ∀ (before after : List Segment) (g : Segment), image = before ++ g :: after →
      (∀ q ∈ before, inPmem q) → ¬ inPmem g →
      hostReset c image = .refused (.imageOutsidePmem g.base g.bytes.length)

/-- R266, R80: a host read of a word in `pmem` gives its four bytes and changes nothing; in a device region it takes the
next draw (log 5); one that is not admitted is fatal, records the current pc, and changes nothing else. -/
def Obligations.HostReadsAreBoundsChecked : Prop :=
  ∀ (s : State) (a : Word),
    (InPmem s a 4 → hostRead a s =
      (some (s.byteAt (a.toNat + 3) ++ s.byteAt (a.toNat + 2) ++ s.byteAt (a.toNat + 1) ++ s.byteAt a.toNat), s)) ∧
    (InDevice s a 4 → hostRead a s = (some (Config.devDraw s.draws), { s with draws := s.draws + 1 })) ∧
    (OutOfBounds s a 4 → (hostRead a s).1 = none ∧ OnlyAborts s (hostRead a s).2 (.outOfBounds a 4 s.pc))

/-- R265: `step^N` always answers a state, `step^(m+n)` is `step^n` after `step^m`, and `step^1` from Running is `step`. -/
def Obligations.HostStepsCompose : Prop :=
  ∀ (m n : Nat) (s : State), ∃ t, hostSteps m s = .next t ∧ hostSteps (m + n) s = hostSteps n t ∧
    (s.run = .running → hostSteps 1 s = step s)

/-! ## Pseudo-instructions -/

/-- R110: the expansion of `li rd, imm` leaves `imm` in `x[rd]`, for every 32-bit `imm`, by one or two instructions. -/
def Obligations.LoadImmediateExpansion : Prop :=
  ∀ (rd : RegIdx) (imm pc : Word) (s : State), rd ≠ 0#5 → s.reg 0#5 = 0#32 →
    (∃ i t, Pseudo.expand pc (.li rd imm) = [i] ∧ exec i s = .next t ∧ t.reg rd = imm) ∨
    (∃ i j t u, Pseudo.expand pc (.li rd imm) = [i, j] ∧ exec i s = .next t ∧ exec j t = .next u ∧ u.reg rd = imm)

/-- R110: the expansion of `call t` at the current pc goes to `t` (bit 0 cleared) and leaves the address after its two
instructions in `ra`. -/
def Obligations.FarCallExpansion : Prop :=
  ∀ (target : Word) (s : State), ∃ i j t u, Pseudo.expand s.pc (.call target) = [i, j] ∧
    exec i s = .next t ∧ exec j t = .next u ∧ u.pc = target &&& ~~~1#32 ∧ u.reg 1#5 = s.pc + 8#32
end

