-- ==== Sys2Proof/Laws/Encoding.lean ====
section
/-! SUPPORT. Encoding: where each format puts its fields, which bits a row's mask keeps, what the field readers give on an
encoded word, and that the table's first match is its only match. -/

namespace Sys2Proof

/-- A field put at bit `lo` of a word. -/
def place {n : Nat} (x : BitVec n) (lo : Nat) : Word := x.setWidth 32 <<< lo

/-! ## Each format as placed fields (R91) -/

theorem encodeR_place (f7 : BitVec 7) (rs2 rs1 : RegIdx) (f3 : BitVec 3) (rd : RegIdx) (op : BitVec 7) :
    encodeR f7 rs2 rs1 f3 rd op = place f7 25 ||| place rs2 20 ||| place rs1 15 ||| place f3 12 ||| place rd 7 ||| place op 0 := by
  apply BitVec.eq_of_getLsbD_eq
  intro i hi
  unfold encodeR
  rw [BitVec.getLsbD_append, BitVec.getLsbD_append, BitVec.getLsbD_append, BitVec.getLsbD_append, BitVec.getLsbD_append]
  interval_cases i <;> simp [place]

theorem encodeI_place (imm : BitVec 12) (rs1 : RegIdx) (f3 : BitVec 3) (rd : RegIdx) (op : BitVec 7) :
    encodeI imm rs1 f3 rd op = place imm 20 ||| place rs1 15 ||| place f3 12 ||| place rd 7 ||| place op 0 := by
  apply BitVec.eq_of_getLsbD_eq
  intro i hi
  unfold encodeI
  rw [BitVec.getLsbD_append, BitVec.getLsbD_append, BitVec.getLsbD_append, BitVec.getLsbD_append]
  interval_cases i <;> simp [place]

theorem encodeS_place (imm : BitVec 12) (rs2 rs1 : RegIdx) (f3 : BitVec 3) (op : BitVec 7) :
    encodeS imm rs2 rs1 f3 op = place (imm.extractLsb' 5 7) 25 ||| place rs2 20 ||| place rs1 15 ||| place f3 12 |||
      place (imm.extractLsb' 0 5) 7 ||| place op 0 := by
  apply BitVec.eq_of_getLsbD_eq
  intro i hi
  unfold encodeS
  rw [BitVec.getLsbD_append, BitVec.getLsbD_append, BitVec.getLsbD_append, BitVec.getLsbD_append, BitVec.getLsbD_append]
  interval_cases i <;> simp [place]

theorem encodeB_place (off : BitVec 13) (rs2 rs1 : RegIdx) (f3 : BitVec 3) (op : BitVec 7) :
    encodeB off rs2 rs1 f3 op = place (off.extractLsb' 12 1) 31 ||| place (off.extractLsb' 5 6) 25 ||| place rs2 20 ||| place rs1 15 |||
      place f3 12 ||| place (off.extractLsb' 1 4) 8 ||| place (off.extractLsb' 11 1) 7 ||| place op 0 := by
  apply BitVec.eq_of_getLsbD_eq
  intro i hi
  unfold encodeB
  rw [BitVec.getLsbD_append, BitVec.getLsbD_append, BitVec.getLsbD_append, BitVec.getLsbD_append, BitVec.getLsbD_append, BitVec.getLsbD_append, BitVec.getLsbD_append]
  interval_cases i <;> simp [place]

theorem encodeU_place (imm : BitVec 20) (rd : RegIdx) (op : BitVec 7) :
    encodeU imm rd op = place imm 12 ||| place rd 7 ||| place op 0 := by
  apply BitVec.eq_of_getLsbD_eq
  intro i hi
  unfold encodeU
  rw [BitVec.getLsbD_append, BitVec.getLsbD_append]
  interval_cases i <;> simp [place]

theorem encodeJ_place (off : BitVec 21) (rd : RegIdx) (op : BitVec 7) :
    encodeJ off rd op = place (off.extractLsb' 20 1) 31 ||| place (off.extractLsb' 1 10) 21 ||| place (off.extractLsb' 11 1) 20 |||
      place (off.extractLsb' 12 8) 12 ||| place rd 7 ||| place op 0 := by
  apply BitVec.eq_of_getLsbD_eq
  intro i hi
  unfold encodeJ
  rw [BitVec.getLsbD_append, BitVec.getLsbD_append, BitVec.getLsbD_append, BitVec.getLsbD_append, BitVec.getLsbD_append]
  interval_cases i <;> simp [place]

/-! ## Gathered immediates (R99, R100, R102) -/

theorem immSOf_bits (w : Word) :
    immSOf w = ((w.extractLsb' 25 7).setWidth 12 <<< 5) |||
      ((w.extractLsb' 7 5).setWidth 12 <<< 0) := by
  apply BitVec.eq_of_getLsbD_eq
  intro i hi
  unfold immSOf
  rw [BitVec.getLsbD_append]
  interval_cases i <;> simp

theorem immJOf_bits (w : Word) :
    immJOf w = ((w.extractLsb' 31 1).setWidth 21 <<< 20) |||
      ((w.extractLsb' 12 8).setWidth 21 <<< 12) |||
      ((w.extractLsb' 20 1).setWidth 21 <<< 11) |||
      ((w.extractLsb' 21 10).setWidth 21 <<< 1) := by
  apply BitVec.eq_of_getLsbD_eq
  intro i hi
  unfold immJOf
  rw [BitVec.getLsbD_append, BitVec.getLsbD_append, BitVec.getLsbD_append, BitVec.getLsbD_append]
  interval_cases i <;> simp

theorem immBOf_bits (w : Word) :
    immBOf w = ((w.extractLsb' 31 1).setWidth 13 <<< 12) |||
      ((w.extractLsb' 7 1).setWidth 13 <<< 11) |||
      ((w.extractLsb' 25 6).setWidth 13 <<< 5) |||
      ((w.extractLsb' 8 4).setWidth 13 <<< 1) := by
  apply BitVec.eq_of_getLsbD_eq
  intro i hi
  unfold immBOf
  rw [BitVec.getLsbD_append, BitVec.getLsbD_append, BitVec.getLsbD_append, BitVec.getLsbD_append]
  interval_cases i <;> simp

/-! ## The bits a mask keeps (R93) -/

theorem encodeR_and (f7 : BitVec 7) (rs2 rs1 : RegIdx) (f3 : BitVec 3) (rd : RegIdx) (op : BitVec 7) :
    encodeR f7 rs2 rs1 f3 rd op &&& 0xfe00707f#32 = place f7 25 ||| place f3 12 ||| place op 0 := by
  apply BitVec.eq_of_getLsbD_eq
  intro i hi
  rw [encodeR_place]
  interval_cases i <;> simp [place]

theorem encodeI_and (imm : BitVec 12) (rs1 : RegIdx) (f3 : BitVec 3) (rd : RegIdx) (op : BitVec 7) :
    encodeI imm rs1 f3 rd op &&& 0x0000707f#32 = place f3 12 ||| place op 0 := by
  apply BitVec.eq_of_getLsbD_eq
  intro i hi
  rw [encodeI_place]
  interval_cases i <;> simp [place]

theorem encodeS_and (imm : BitVec 12) (rs2 rs1 : RegIdx) (f3 : BitVec 3) (op : BitVec 7) :
    encodeS imm rs2 rs1 f3 op &&& 0x0000707f#32 = place f3 12 ||| place op 0 := by
  apply BitVec.eq_of_getLsbD_eq
  intro i hi
  rw [encodeS_place]
  interval_cases i <;> simp [place]

theorem encodeB_and (off : BitVec 13) (rs2 rs1 : RegIdx) (f3 : BitVec 3) (op : BitVec 7) :
    encodeB off rs2 rs1 f3 op &&& 0x0000707f#32 = place f3 12 ||| place op 0 := by
  apply BitVec.eq_of_getLsbD_eq
  intro i hi
  rw [encodeB_place]
  interval_cases i <;> simp [place]

theorem encodeU_and (imm : BitVec 20) (rd : RegIdx) (op : BitVec 7) :
    encodeU imm rd op &&& 0x0000007f#32 = place op 0 := by
  apply BitVec.eq_of_getLsbD_eq
  intro i hi
  rw [encodeU_place]
  interval_cases i <;> simp [place]

theorem encodeJ_and (off : BitVec 21) (rd : RegIdx) (op : BitVec 7) :
    encodeJ off rd op &&& 0x0000007f#32 = place op 0 := by
  apply BitVec.eq_of_getLsbD_eq
  intro i hi
  rw [encodeJ_place]
  interval_cases i <;> simp [place]

/-! ## What the field readers give on an encoded word (R96 to R103) -/

theorem rdOf_encodeR (f7 : BitVec 7) (rs2 rs1 : RegIdx) (f3 : BitVec 3) (rd : RegIdx) (op : BitVec 7) :
    rdOf (encodeR f7 rs2 rs1 f3 rd op) = rd := by
  apply BitVec.eq_of_getLsbD_eq
  intro i hi
  rw [encodeR_place]
  interval_cases i <;> simp [place, rdOf]

theorem rs1Of_encodeR (f7 : BitVec 7) (rs2 rs1 : RegIdx) (f3 : BitVec 3) (rd : RegIdx) (op : BitVec 7) :
    rs1Of (encodeR f7 rs2 rs1 f3 rd op) = rs1 := by
  apply BitVec.eq_of_getLsbD_eq
  intro i hi
  rw [encodeR_place]
  interval_cases i <;> simp [place, rs1Of]

theorem rs2Of_encodeR (f7 : BitVec 7) (rs2 rs1 : RegIdx) (f3 : BitVec 3) (rd : RegIdx) (op : BitVec 7) :
    rs2Of (encodeR f7 rs2 rs1 f3 rd op) = rs2 := by
  apply BitVec.eq_of_getLsbD_eq
  intro i hi
  rw [encodeR_place]
  interval_cases i <;> simp [place, rs2Of]

theorem rdOf_encodeI (imm : BitVec 12) (rs1 : RegIdx) (f3 : BitVec 3) (rd : RegIdx) (op : BitVec 7) :
    rdOf (encodeI imm rs1 f3 rd op) = rd := by
  apply BitVec.eq_of_getLsbD_eq
  intro i hi
  rw [encodeI_place]
  interval_cases i <;> simp [place, rdOf]

theorem rs1Of_encodeI (imm : BitVec 12) (rs1 : RegIdx) (f3 : BitVec 3) (rd : RegIdx) (op : BitVec 7) :
    rs1Of (encodeI imm rs1 f3 rd op) = rs1 := by
  apply BitVec.eq_of_getLsbD_eq
  intro i hi
  rw [encodeI_place]
  interval_cases i <;> simp [place, rs1Of]

theorem immIOf_encodeI (imm : BitVec 12) (rs1 : RegIdx) (f3 : BitVec 3) (rd : RegIdx) (op : BitVec 7) :
    immIOf (encodeI imm rs1 f3 rd op) = imm := by
  apply BitVec.eq_of_getLsbD_eq
  intro i hi
  rw [encodeI_place]
  interval_cases i <;> simp [place, immIOf]

theorem rs1Of_encodeS (imm : BitVec 12) (rs2 rs1 : RegIdx) (f3 : BitVec 3) (op : BitVec 7) :
    rs1Of (encodeS imm rs2 rs1 f3 op) = rs1 := by
  apply BitVec.eq_of_getLsbD_eq
  intro i hi
  rw [encodeS_place]
  interval_cases i <;> simp [place, rs1Of]

theorem rs2Of_encodeS (imm : BitVec 12) (rs2 rs1 : RegIdx) (f3 : BitVec 3) (op : BitVec 7) :
    rs2Of (encodeS imm rs2 rs1 f3 op) = rs2 := by
  apply BitVec.eq_of_getLsbD_eq
  intro i hi
  rw [encodeS_place]
  interval_cases i <;> simp [place, rs2Of]

theorem immSOf_encodeS (imm : BitVec 12) (rs2 rs1 : RegIdx) (f3 : BitVec 3) (op : BitVec 7) :
    immSOf (encodeS imm rs2 rs1 f3 op) = imm := by
  apply BitVec.eq_of_getLsbD_eq
  intro i hi
  rw [encodeS_place]
  interval_cases i <;> simp [place, immSOf_bits]

theorem rs1Of_encodeB (off : BitVec 13) (rs2 rs1 : RegIdx) (f3 : BitVec 3) (op : BitVec 7) :
    rs1Of (encodeB off rs2 rs1 f3 op) = rs1 := by
  apply BitVec.eq_of_getLsbD_eq
  intro i hi
  rw [encodeB_place]
  interval_cases i <;> simp [place, rs1Of]

theorem rs2Of_encodeB (off : BitVec 13) (rs2 rs1 : RegIdx) (f3 : BitVec 3) (op : BitVec 7) :
    rs2Of (encodeB off rs2 rs1 f3 op) = rs2 := by
  apply BitVec.eq_of_getLsbD_eq
  intro i hi
  rw [encodeB_place]
  interval_cases i <;> simp [place, rs2Of]

theorem immBOf_encodeB (off : BitVec 13) (rs2 rs1 : RegIdx) (f3 : BitVec 3) (op : BitVec 7)
    (h : evenOffset off = true) :
    immBOf (encodeB off rs2 rs1 f3 op) = off := by
  apply BitVec.eq_of_getLsbD_eq
  intro i hi
  rw [encodeB_place]
  interval_cases i <;> simp_all [place, immBOf_bits, evenOffset]

theorem rdOf_encodeU (imm : BitVec 20) (rd : RegIdx) (op : BitVec 7) :
    rdOf (encodeU imm rd op) = rd := by
  apply BitVec.eq_of_getLsbD_eq
  intro i hi
  rw [encodeU_place]
  interval_cases i <;> simp [place, rdOf]

theorem immUOf_encodeU (imm : BitVec 20) (rd : RegIdx) (op : BitVec 7) :
    immUOf (encodeU imm rd op) = imm := by
  apply BitVec.eq_of_getLsbD_eq
  intro i hi
  rw [encodeU_place]
  interval_cases i <;> simp [place, immUOf]

theorem rdOf_encodeJ (off : BitVec 21) (rd : RegIdx) (op : BitVec 7) :
    rdOf (encodeJ off rd op) = rd := by
  apply BitVec.eq_of_getLsbD_eq
  intro i hi
  rw [encodeJ_place]
  interval_cases i <;> simp [place, rdOf]

theorem immJOf_encodeJ (off : BitVec 21) (rd : RegIdx) (op : BitVec 7)
    (h : evenOffset off = true) :
    immJOf (encodeJ off rd op) = off := by
  apply BitVec.eq_of_getLsbD_eq
  intro i hi
  rw [encodeJ_place]
  interval_cases i <;> simp_all [place, immJOf_bits, evenOffset]

/-! ## The table (R92 to R95) -/

/-- Two rows that fix a common bit differently: no word matches both. -/
abbrev Row.apart (r q : Row) : Prop := r.mask &&& q.mask &&& (r.fixed ^^^ q.fixed) ≠ 0#32

/-- The 50 rows before the catch-all are pairwise apart (R94, "Checked by computation"). -/
theorem instrRows_apart : instrRows.Pairwise Row.apart := by decide

/-- Rows that are apart match no common word. -/
theorem Row.apart_hits {r q : Row} (h : r.apart q) (w : Word) (hr : r.hits w = true) : q.hits w = false := by
  by_contra hq
  rw [Bool.not_eq_false] at hq
  simp only [Row.hits, beq_iff_eq] at hr hq
  apply h
  rw [← hr, ← hq]
  apply BitVec.eq_of_getLsbD_eq
  intro i hi
  simp only [BitVec.getLsbD_and, BitVec.getLsbD_xor, BitVec.getLsbD_zero]
  cases r.mask.getLsbD i <;> cases q.mask.getLsbD i <;> simp

/-- In a list of rows that are pairwise apart, the first match is the only one. -/
theorem find_of_hits {rows : List Row} (hp : rows.Pairwise Row.apart) {r : Row} (hr : r ∈ rows) {w : Word}
    (h : r.hits w = true) : rows.find? (fun q => q.hits w) = some r := by
  induction rows with
  | nil => cases hr
  | cons q rows ih =>
    obtain ⟨hhead, htail⟩ := List.pairwise_cons.mp hp
    rcases List.mem_cons.mp hr with rfl | hr
    · simp [h]
    · have hq : q.hits w = false := by
        by_contra hc
        rw [Bool.not_eq_false] at hc
        rw [Row.apart_hits (hhead r hr) w hc] at h
        cases h
      rw [List.find?_cons_of_neg (by simp [hq])]
      exact ih htail hr

/-- A word that matches one of the 50 rows decodes by that row. -/
theorem decodeWord_of_hits {r : Row} (hr : r ∈ instrRows) {w : Word} (h : r.hits w = true) :
    decodeWord w = r.shape.read w := by
  unfold decodeWord table
  rw [List.find?_append, find_of_hits instrRows_apart hr h]
  rfl

/-- A word that matches none of the 50 rows decodes to `inv`. -/
theorem decodeWord_of_unmatched {w : Word} (h : unmatched w = true) : decodeWord w = .inv w := by
  have hn : instrRows.find? (fun q => q.hits w) = none := by
    rw [List.find?_eq_none]
    intro r hr
    have := List.all_eq_true.mp h r hr
    simpa using this
  have hi : invRow.hits w = true := by simp [Row.hits, invRow]
  unfold decodeWord table
  rw [List.find?_append, hn]
  simp [hi]
  rfl

end Sys2Proof
end

