-- ==== Sys2Proof/Laws/Memory.lean ====
section
/-! SUPPORT. Memory: a read after a write, writes leave other places alone, every operation keeps the canonical form and
the bounds of `pmem`. -/

namespace Sys2Proof.Machine

/-! ## One byte -/

theorem Memory.lookup_setByte (m : Memory) (a k : Nat) (b : Byte) :
    (m.setByte a b).lookup k = if k = a then some b else m.lookup k := by
  induction m with
  | nil => simp [Memory.setByte, Memory.lookup]
  | cons p m ih =>
    obtain ⟨j, c⟩ := p
    unfold Memory.setByte
    split_ifs with h1 h2 h3 h4 h5
    · simp [Memory.lookup, h2]
    · simp [Memory.lookup, h2]
    · simp [Memory.lookup, h4]
    · subst h3
      simp [Memory.lookup, h4]
    · subst h5
      simp [Memory.lookup, h3, ih]
    · simp [Memory.lookup, ih, h5]

theorem Memory.byteAt_setByte (m : Memory) (a k : Nat) (b : Byte) :
    (m.setByte a b).byteAt k = if k = a then b else m.byteAt k := by
  unfold Memory.byteAt
  rw [Memory.lookup_setByte]
  split_ifs <;> rfl

/-- The keys after a byte is written. -/
theorem Memory.mem_setByte {m : Memory} {a : Nat} {b : Byte} {c : Host.Cell} (h : c ∈ m.setByte a b) :
    c = (a, b) ∨ c ∈ m := by
  induction m with
  | nil => simpa [Memory.setByte] using h
  | cons p m ih =>
    obtain ⟨j, d⟩ := p
    unfold Memory.setByte at h
    split_ifs at h with h1 h2
    · simpa using h
    · rcases List.mem_cons.mp h with h | h
      · exact .inl h
      · exact .inr (List.mem_cons_of_mem _ h)
    · rcases List.mem_cons.mp h with h | h
      · exact .inr (by simp [h])
      · rcases ih h with h | h
        · exact .inl h
        · exact .inr (List.mem_cons_of_mem _ h)

theorem Memory.wf_setByte {m : Memory} (h : m.wf) (a : Nat) (b : Byte) : (m.setByte a b).wf := by
  induction m with
  | nil => simp [Memory.setByte]
  | cons p m ih =>
    obtain ⟨j, d⟩ := p
    obtain ⟨hhead, htail⟩ := List.pairwise_cons.mp h
    unfold Memory.setByte
    split_ifs with h1 h2
    · refine List.pairwise_cons.mpr ⟨fun c hc => ?_, h⟩
      rcases List.mem_cons.mp hc with rfl | hc
      · exact h1
      · exact lt_trans h1 (hhead c hc)
    · subst h2
      exact List.pairwise_cons.mpr ⟨hhead, htail⟩
    · refine List.pairwise_cons.mpr ⟨fun c hc => ?_, ih htail⟩
      rcases Memory.mem_setByte hc with rfl | hc
      · show j < a
        omega
      · exact hhead c hc

/-! ## Several bytes -/

theorem Memory.byteAt_setBytes (m : Memory) (a k : Nat) (bs : List Byte) :
    (m.setBytes a bs).byteAt k =
      if a ≤ k ∧ k < a + bs.length then bs.getD (k - a) 0#8 else m.byteAt k := by
  induction bs generalizing m a with
  | nil =>
    have h : ¬ (a ≤ k ∧ k < a + ([] : List Byte).length) := by simp
    rw [if_neg h]
    rfl
  | cons b bs ih =>
    rw [Memory.setBytes, ih, Memory.byteAt_setByte]
    by_cases hk : k = a
    · subst hk
      have h1 : ¬ (k + 1 ≤ k ∧ k < k + 1 + bs.length) := by omega
      have h2 : k ≤ k ∧ k < k + (b :: bs).length := by simp
      rw [if_neg h1, if_pos rfl, if_pos h2]
      simp
    · by_cases hin : a + 1 ≤ k ∧ k < a + 1 + bs.length
      · have h2 : a ≤ k ∧ k < a + (b :: bs).length := by simp only [List.length_cons]; omega
        have h3 : k - a = (k - (a + 1)) + 1 := by omega
        rw [if_pos hin, if_pos h2, h3]
        simp
      · have h2 : ¬ (a ≤ k ∧ k < a + (b :: bs).length) := by simp only [List.length_cons]; omega
        rw [if_neg hin, if_neg hk, if_neg h2]

theorem Memory.wf_setBytes {m : Memory} (h : m.wf) (a : Nat) (bs : List Byte) : (m.setBytes a bs).wf := by
  induction bs generalizing m a with
  | nil => exact h
  | cons b bs ih => exact ih (Memory.wf_setByte h a b) (a + 1)

theorem Memory.within_setBytes {m : Memory} {r : Region} (h : m.within r) (a : Nat) (bs : List Byte)
    (hlo : r.base ≤ a) (hhi : a + bs.length ≤ r.base + r.size) : (m.setBytes a bs).within r := by
  induction bs generalizing m a with
  | nil => exact h
  | cons b bs ih =>
    simp only [List.length_cons] at hhi
    refine ih (m := m.setByte a b) (fun c hc => ?_) (a + 1) (by omega) (by omega)
    rcases Memory.mem_setByte hc with rfl | hc
    · exact ⟨hlo, by show a < _; omega⟩
    · exact h c hc

/-! ## Little-endian words -/

@[simp] theorem length_leBytes (n : Nat) (v : Word) : (leBytes n v).length = n := by simp [leBytes]

theorem getD_leBytes {n k : Nat} (h : k < n) (v : Word) :
    (leBytes n v).getD k 0#8 = v.extractLsb' (8 * k) 8 := by
  simp [leBytes, List.getD, h]

/-- What a byte reads as after the low `n` bytes of a word were written at `a` (R65). -/
theorem Memory.byteAt_write (m : Memory) (a n k : Nat) (v : Word) :
    (m.write a n v).byteAt k =
      if a ≤ k ∧ k < a + n then v.extractLsb' (8 * (k - a)) 8 else m.byteAt k := by
  rw [Memory.write, Memory.byteAt_setBytes, length_leBytes]
  split_ifs with h
  · rw [getD_leBytes (by omega)]
  · rfl

theorem Memory.wf_write {m : Memory} (h : m.wf) (a n : Nat) (v : Word) : (m.write a n v).wf :=
  Memory.wf_setBytes h a _

theorem Memory.within_write {m : Memory} {r : Region} (h : m.within r) (a n : Nat) (v : Word)
    (hlo : r.base ≤ a) (hhi : a + n ≤ r.base + r.size) : (m.write a n v).within r :=
  Memory.within_setBytes h a _ hlo (by simpa using hhi)

/-- A one-byte read (R64). -/
theorem Memory.read_one (m : Memory) (a : Nat) : m.read a 1 = (m.byteAt a).setWidth 32 := by
  simp [Memory.read, leWord]

/-- A two-byte read: the byte at the lower address is less significant (R64). -/
theorem Memory.read_two (m : Memory) (a : Nat) :
    m.read a 2 = ((m.byteAt (a + 1)).setWidth 32 <<< 8) ||| (m.byteAt a).setWidth 32 := by
  simp [Memory.read, leWord, List.range_succ]

/-- A four-byte read (R64). -/
theorem Memory.read_four (m : Memory) (a : Nat) :
    m.read a 4 = m.byteAt (a + 3) ++ m.byteAt (a + 2) ++ m.byteAt (a + 1) ++ m.byteAt a := by
  simp only [Memory.read, leWord, List.range_succ, List.range_zero, List.nil_append, List.cons_append, List.map_cons,
    List.map_nil, Nat.add_zero]
  apply BitVec.eq_of_getLsbD_eq
  intro i hi
  rw [BitVec.getLsbD_append, BitVec.getLsbD_append, BitVec.getLsbD_append]
  interval_cases i <;> simp

end Sys2Proof.Machine
end

