-- ==== Sys2Proof/Laws/State.lean ====
section
/-! SUPPORT. One lemma per field per update of the state, so that no proof unfolds a record update. -/

namespace Sys2Proof.Machine

/-! ## Writing a register -/

@[simp] theorem State.setReg_pc (s : State) (i : RegIdx) (v : Word) : (s.setReg i v).pc = s.pc := rfl
@[simp] theorem State.setReg_csrs (s : State) (i : RegIdx) (v : Word) : (s.setReg i v).csrs = s.csrs := rfl
@[simp] theorem State.setReg_mem (s : State) (i : RegIdx) (v : Word) : (s.setReg i v).mem = s.mem := rfl
@[simp] theorem State.setReg_run (s : State) (i : RegIdx) (v : Word) : (s.setReg i v).run = s.run := rfl
@[simp] theorem State.setReg_cfg (s : State) (i : RegIdx) (v : Word) : (s.setReg i v).cfg = s.cfg := rfl
@[simp] theorem State.setReg_draws (s : State) (i : RegIdx) (v : Word) : (s.setReg i v).draws = s.draws := rfl
@[simp] theorem State.setReg_events (s : State) (i : RegIdx) (v : Word) : (s.setReg i v).events = s.events := rfl
@[simp] theorem State.setReg_regs (s : State) (i : RegIdx) (v : Word) :
    (s.setReg i v).regs = s.regs.set i.toNat v := rfl

/-! ## Writing a CSR -/

@[simp] theorem State.setCsr_regs (s : State) (a : CsrAddr) (v : Word) : (s.setCsr a v).regs = s.regs := rfl
@[simp] theorem State.setCsr_pc (s : State) (a : CsrAddr) (v : Word) : (s.setCsr a v).pc = s.pc := rfl
@[simp] theorem State.setCsr_mem (s : State) (a : CsrAddr) (v : Word) : (s.setCsr a v).mem = s.mem := rfl
@[simp] theorem State.setCsr_run (s : State) (a : CsrAddr) (v : Word) : (s.setCsr a v).run = s.run := rfl
@[simp] theorem State.setCsr_cfg (s : State) (a : CsrAddr) (v : Word) : (s.setCsr a v).cfg = s.cfg := rfl
@[simp] theorem State.setCsr_draws (s : State) (a : CsrAddr) (v : Word) : (s.setCsr a v).draws = s.draws := rfl
@[simp] theorem State.setCsr_events (s : State) (a : CsrAddr) (v : Word) : (s.setCsr a v).events = s.events := rfl
@[simp] theorem State.setCsr_csrs (s : State) (a : CsrAddr) (v : Word) :
    (s.setCsr a v).csrs = s.csrs.write a v := rfl

/-! ## Showing an event -/

@[simp] theorem State.emit_regs (s : State) (e : Event) : (s.emit e).regs = s.regs := rfl
@[simp] theorem State.emit_pc (s : State) (e : Event) : (s.emit e).pc = s.pc := rfl
@[simp] theorem State.emit_csrs (s : State) (e : Event) : (s.emit e).csrs = s.csrs := rfl
@[simp] theorem State.emit_mem (s : State) (e : Event) : (s.emit e).mem = s.mem := rfl
@[simp] theorem State.emit_run (s : State) (e : Event) : (s.emit e).run = s.run := rfl
@[simp] theorem State.emit_cfg (s : State) (e : Event) : (s.emit e).cfg = s.cfg := rfl
@[simp] theorem State.emit_draws (s : State) (e : Event) : (s.emit e).draws = s.draws := rfl
@[simp] theorem State.emit_events (s : State) (e : Event) :
    (s.emit e).events = s.events ++ [e] := rfl

/-! ## The end of a step -/

@[simp] theorem State.endStep_csrs (s : State) (d : Word) : (s.endStep d).csrs = s.csrs := rfl
@[simp] theorem State.endStep_mem (s : State) (d : Word) : (s.endStep d).mem = s.mem := rfl
@[simp] theorem State.endStep_run (s : State) (d : Word) : (s.endStep d).run = s.run := rfl
@[simp] theorem State.endStep_cfg (s : State) (d : Word) : (s.endStep d).cfg = s.cfg := rfl
@[simp] theorem State.endStep_draws (s : State) (d : Word) : (s.endStep d).draws = s.draws := rfl
@[simp] theorem State.endStep_events (s : State) (d : Word) : (s.endStep d).events = s.events := rfl
@[simp] theorem State.endStep_pc (s : State) (d : Word) :
    (s.endStep d).pc = d := rfl
@[simp] theorem State.endStep_regs (s : State) (d : Word) :
    (s.endStep d).regs = s.regs.set 0 0#32 := rfl

/-! ## Reading a register -/

/-- Reading depends on the register file alone. -/
theorem State.reg_congr {s t : State} (h : t.regs = s.regs) (r : RegIdx) : t.reg r = s.reg r := by
  simp [State.reg, h]

theorem State.reg_setReg (s : State) (i r : RegIdx) (v : Word) :
    (s.setReg i v).reg r = if r = i then v else s.reg r := by
  simp only [State.reg, State.setReg_regs, Vector.getElem_set]
  by_cases h : i = r
  · simp [h]
  · have hn : i.toNat ≠ r.toNat := fun e => h (BitVec.eq_of_toNat_eq e)
    simp [hn, Ne.symm h]

theorem State.reg_endStep (s : State) (d : Word) (r : RegIdx) :
    (s.endStep d).reg r = if r = 0#5 then 0#32 else s.reg r := by
  have h : (s.endStep d).reg r = (s.setReg 0#5 0#32).reg r := State.reg_congr rfl r
  rw [h, State.reg_setReg]

@[simp] theorem State.reg_setCsr (s : State) (a : CsrAddr) (v : Word) (r : RegIdx) :
    (s.setCsr a v).reg r = s.reg r := rfl

@[simp] theorem State.reg_emit (s : State) (e : Event) (r : RegIdx) : (s.emit e).reg r = s.reg r := rfl

/-! ## Reading a byte -/

/-- A byte read depends on the memory alone. -/
theorem State.byteAt_congr {s t : State} (h : t.mem = s.mem) (a : Nat) : t.byteAt a = s.byteAt a := by
  simp [State.byteAt, h]

/-! ## CSRs by address -/

/-- A CSR write by address changes the addressed CSR and no other; at an unrecognised address, none. -/
theorem Csrs.write_eq (c : Csrs) (a : CsrAddr) (v : Word) :
    c.write a v =
      { mstatus := if a = 0x300#12 then v else c.mstatus
        mtvec := if a = 0x305#12 then v else c.mtvec
        mepc := if a = 0x341#12 then v else c.mepc
        mcause := if a = 0x342#12 then v else c.mcause } := by
  unfold Csrs.write Csr.ofAddr
  by_cases h0 : a = 0x300#12
  · subst h0; simp [Csrs.set]
  · by_cases h1 : a = 0x305#12
    · subst h1; simp [Csrs.set]
    · by_cases h2 : a = 0x341#12
      · subst h2; simp [Csrs.set]
      · by_cases h3 : a = 0x342#12
        · subst h3; simp [Csrs.set]
        · simp [h0, h1, h2, h3]

/-- A CSR read by address. -/
theorem Csrs.read_eq (c : Csrs) (a : CsrAddr) :
    c.read a = if a = 0x300#12 then c.mstatus else if a = 0x305#12 then c.mtvec
      else if a = 0x341#12 then c.mepc else if a = 0x342#12 then c.mcause else 0#32 := by
  unfold Csrs.read Csr.ofAddr
  split_ifs <;> rfl

end Sys2Proof.Machine
end

