-- ==== Sys2Proof/Laws/Ops.lean ====
section
/-! SUPPORT. One lemma per shared operation, saying everything it can do; later proofs cite these and do not unfold the
operation. -/

namespace Sys2Proof.Machine

/-! ## Admission (R63) -/

theorem admission_pmem {s : State} {a : Word} {n : Nat} (h : InPmem s a n) : s.admission a n = some .pmem := by
  have h1 : covers s.cfg.pmem a.toNat n = true := decide_eq_true h
  simp [State.admission, h1]

theorem admission_device {s : State} {a : Word} {n : Nat} (h : InDevice s a n) : s.admission a n = some .device := by
  obtain ⟨hp, r, hr, hlo, hhi⟩ := h
  have h1 : covers s.cfg.pmem a.toNat n = false := decide_eq_false hp
  have h2 : s.cfg.deviceRegions.any (fun r => covers r a.toNat n) = true :=
    List.any_eq_true.mpr ⟨r, hr, by simp [covers, hlo, hhi]⟩
  simp [State.admission, h1, h2]

theorem admission_outOfBounds {s : State} {a : Word} {n : Nat} (h : OutOfBounds s a n) : s.admission a n = none := by
  obtain ⟨hp, hd⟩ := h
  have h1 : covers s.cfg.pmem a.toNat n = false := decide_eq_false hp
  have h2 : s.cfg.deviceRegions.any (fun r => covers r a.toNat n) = false := by
    rw [List.any_eq_false]
    intro r hr hc
    exact hd ⟨r, hr, by simpa [covers] using hc⟩
  simp [State.admission, h1, h2]

/-- Every access falls under exactly one of the three cases; this is the split to start a proof with. -/
theorem access_cases (s : State) (a : Word) (n : Nat) : InPmem s a n ∨ InDevice s a n ∨ OutOfBounds s a n := by
  by_cases h : InPmem s a n
  · exact .inl h
  · by_cases hd : ∃ r ∈ s.cfg.deviceRegions, r.base ≤ a.toNat ∧ a.toNat + n ≤ r.base + r.size
    · exact .inr (.inl ⟨h, hd⟩)
    · exact .inr (.inr ⟨h, hd⟩)

/-! ## Memory reads and writes (R62, R64, R65) -/

theorem memRead_pmem {s : State} {a : Word} {n : Nat} (h : InPmem s a n) :
    s.memRead a n = some (s.mem.read a.toNat n, s) := by
  simp [State.memRead, admission_pmem h]

theorem memRead_device {s : State} {a : Word} {n : Nat} (h : InDevice s a n) :
    s.memRead a n = some (zextBytes n (Config.devDraw s.draws), { s with draws := s.draws + 1 }) := by
  simp [State.memRead, admission_device h]

theorem memRead_outOfBounds {s : State} {a : Word} {n : Nat} (h : OutOfBounds s a n) : s.memRead a n = none := by
  simp [State.memRead, admission_outOfBounds h]

theorem memWrite_pmem {s : State} {a : Word} {n : Nat} {v : Word} (h : InPmem s a n) :
    s.memWrite a n v = some { s with mem := s.mem.write a.toNat n v } := by
  simp [State.memWrite, admission_pmem h]

theorem memWrite_device {s : State} {a : Word} {n : Nat} {v : Word} (h : InDevice s a n) :
    s.memWrite a n v = some (s.emit (.devWrite a n (zextBytes n v))) := by
  simp [State.memWrite, admission_device h]

theorem memWrite_outOfBounds {s : State} {a : Word} {n : Nat} {v : Word} (h : OutOfBounds s a n) :
    s.memWrite a n v = none := by
  simp [State.memWrite, admission_outOfBounds h]

/-! ## Ends of a step (R118, R253) -/

/-- An instruction that ends with `result` writes its register, goes to `snpc` and changes nothing else. -/
theorem result_spec (s : State) (rd : RegIdx) (v : Word) :
    ∃ t, s.result rd v = .next t ∧ OnlyWrites s t rd v (s.pc + 4#32) := by
  refine ⟨_, rfl, fun r => ?_, rfl, rfl, ⟨rfl, fun _ => rfl⟩, rfl, rfl, rfl, rfl⟩
  rw [State.reg_endStep, State.reg_setReg]

/-- An instruction that ends with `finish` goes to `dnpc` and changes nothing else. -/
theorem finish_spec (s : State) (d : Word) : ∃ t, s.finish d = .next t ∧ OnlyGoesTo s t d :=
  ⟨_, rfl, fun r => State.reg_endStep s d r, rfl, rfl, ⟨rfl, fun _ => rfl⟩, rfl, rfl, rfl, rfl⟩

/-- A fatal error changes only the run state. -/
theorem fatal_spec (s : State) (why : Abort) : ∃ t, s.fatal why = .next t ∧ OnlyAborts s t why := ⟨_, rfl, rfl⟩

/-- A jump links, goes to its target, and shows its trace events. -/
theorem jump_spec (s : State) (rd : RegIdx) (target : Word) (trace : List Event) :
    ∃ t, s.jump rd target trace = .next t ∧ WritesReg s t rd (s.pc + 4#32) ∧ t.pc = target ∧ t.csrs = s.csrs ∧
      KeepsMem s t ∧ t.run = s.run ∧ t.cfg = s.cfg ∧ t.draws = s.draws ∧ t.events = s.events ++ trace := by
  refine ⟨_, rfl, fun r => ?_, rfl, rfl, ⟨rfl, fun _ => rfl⟩, rfl, rfl, rfl, rfl⟩
  rw [← State.reg_setReg]
  exact State.reg_endStep (s.setReg rd s.snpc) target r

/-- A branch goes to its target when taken, else to `snpc`. -/
theorem branch_spec (s : State) (taken : Bool) (off : BitVec 13) :
    ∃ t, s.branch taken off = .next t ∧
      OnlyGoesTo s t (if taken = true then s.pc + off.signExtend 32 else s.pc + 4#32) :=
  finish_spec s _

/-! ## Loads and stores (R190 to R200) -/

theorem load_pmem {s : State} {rd rs1 : RegIdx} {imm : BitVec 12} {n : Nat} {ext : Word → Word}
    (h : InPmem s (s.ea rs1 imm) n) :
    s.load rd rs1 imm n ext = s.result rd (ext (s.mem.read (s.ea rs1 imm).toNat n)) := by
  simp [State.load, memRead_pmem h]

theorem load_device {s : State} {rd rs1 : RegIdx} {imm : BitVec 12} {n : Nat} {ext : Word → Word}
    (h : InDevice s (s.ea rs1 imm) n) :
    s.load rd rs1 imm n ext =
      State.result { s with draws := s.draws + 1 } rd (ext (zextBytes n (Config.devDraw s.draws))) := by
  simp [State.load, memRead_device h]

theorem load_outOfBounds {s : State} {rd rs1 : RegIdx} {imm : BitVec 12} {n : Nat} {ext : Word → Word}
    (h : OutOfBounds s (s.ea rs1 imm) n) :
    s.load rd rs1 imm n ext = s.fatal (.outOfBounds (s.ea rs1 imm) n s.pc) := by
  simp [State.load, memRead_outOfBounds h]

theorem store_pmem {s : State} {rs2 rs1 : RegIdx} {imm : BitVec 12} {n : Nat} (h : InPmem s (s.ea rs1 imm) n) :
    s.store rs2 rs1 imm n =
      State.finish { s with mem := s.mem.write (s.ea rs1 imm).toNat n (s.reg rs2) } s.snpc := by
  simp [State.store, memWrite_pmem h]

theorem store_device {s : State} {rs2 rs1 : RegIdx} {imm : BitVec 12} {n : Nat} (h : InDevice s (s.ea rs1 imm) n) :
    s.store rs2 rs1 imm n =
      (s.emit (.devWrite (s.ea rs1 imm) n (zextBytes n (s.reg rs2)))).finish s.snpc := by
  simp [State.store, memWrite_device h]

theorem store_outOfBounds {s : State} {rs2 rs1 : RegIdx} {imm : BitVec 12} {n : Nat}
    (h : OutOfBounds s (s.ea rs1 imm) n) :
    s.store rs2 rs1 imm n = s.fatal (.outOfBounds (s.ea rs1 imm) n s.pc) := by
  simp [State.store, memWrite_outOfBounds h]

/-! ## Division (R179) -/

/-- A division aborts exactly at a corner with DIV_CORNER = fault; else it writes its value. -/
theorem divide_cases (s : State) (rd : RegIdx) (corner : Bool) (v : Word) :
    (s.cfg.divCorner = .fault ∧ corner = true ∧ s.divide rd corner v = s.fatal (.divideCorner s.pc)) ∨
    (¬ (s.cfg.divCorner = .fault ∧ corner = true) ∧ s.divide rd corner v = s.result rd v) := by
  by_cases h : s.cfg.divCorner = .fault ∧ corner = true
  · exact .inl ⟨h.1, h.2, if_pos h⟩
  · exact .inr ⟨h, if_neg h⟩

/-! ## The trap boundary (R254, R255) -/

/-- Whatever the handler, taking a trap changes the CSRs and nothing else. -/
theorem takeTrap_keeps (s : State) (no epc : Word) :
    ∃ c d, s.takeTrap no epc = ({ s with csrs := c }, d) := by
  unfold State.takeTrap
  split <;> exact ⟨_, _, rfl⟩

theorem takeTrap_reference {s : State} (h : s.cfg.trapHandler = .reference) (no epc : Word) :
    s.takeTrap no epc = ({ s with csrs := { s.csrs with mepc := epc, mcause := no } }, s.csrs.mtvec) := by
  simp [State.takeTrap, h]

/-! ## Fetch and step (R113, R114) -/

theorem fetch_pmem {s : State} (h : InPmem s s.pc 4) :
    s.fetch = .inr (decodeWord (s.mem.read s.pc.toNat 4), s) := by
  simp [State.fetch, memRead_pmem h]

theorem fetch_device {s : State} (h : InDevice s s.pc 4) :
    s.fetch = .inr (decodeWord (zextBytes 4 (Config.devDraw s.draws)), { s with draws := s.draws + 1 }) := by
  simp [State.fetch, memRead_device h]

theorem fetch_outOfBounds {s : State} (h : OutOfBounds s s.pc 4) :
    s.fetch = .inl (s.fatal (.outOfBounds s.pc 4 s.pc)) := by
  simp [State.fetch, memRead_outOfBounds h]

/-- Everything a step can do: nothing unless Running; a fatal fetch; or `exec` of the decoded word, in the state the
fetch leaves. -/
theorem step_cases (s : State) :
    (s.run ≠ .running ∧ ∃ why, step s = .fault why) ∨
    (s.run = .running ∧ OutOfBounds s s.pc 4 ∧ step s = s.fatal (.outOfBounds s.pc 4 s.pc)) ∨
    (s.run = .running ∧ InPmem s s.pc 4 ∧ step s = exec (decodeWord (s.mem.read s.pc.toNat 4)) s) ∨
    (s.run = .running ∧ InDevice s s.pc 4 ∧
      step s = exec (decodeWord (zextBytes 4 (Config.devDraw s.draws))) { s with draws := s.draws + 1 }) := by
  cases hr : s.run with
  | ended h r => exact .inl ⟨by simp, .ended h r, by simp [step, hr, Run.stop]⟩
  | aborted w => exact .inl ⟨by simp, .aborted w, by simp [step, hr, Run.stop]⟩
  | running =>
    right
    rcases access_cases s s.pc 4 with h | h | h
    · exact .inr (.inl ⟨rfl, h, by simp [step, hr, Run.stop, fetch_pmem h]⟩)
    · exact .inr (.inr ⟨rfl, h, by simp [step, hr, Run.stop, fetch_device h]⟩)
    · exact .inl ⟨rfl, h, by simp [step, hr, Run.stop, fetch_outOfBounds h]⟩

/-! ## The canonical form through the operations on the state -/

theorem memWrite_keeps_memory {s t : State} {a : Word} {n : Nat} {v : Word} (h : s.memWrite a n v = some t)
    (hw : s.mem.wf) (hi : s.mem.within s.cfg.pmem) : t.mem.wf ∧ t.mem.within t.cfg.pmem := by
  rcases access_cases s a n with hp | hd | ho
  · rw [memWrite_pmem hp] at h
    obtain rfl := Option.some.inj h
    exact ⟨Memory.wf_write hw _ _ _, Memory.within_write hi _ _ _ hp.1 hp.2⟩
  · rw [memWrite_device hd] at h
    obtain rfl := Option.some.inj h
    exact ⟨hw, hi⟩
  · rw [memWrite_outOfBounds ho] at h
    exact absurd h (by simp)

/-- A piece fits exactly when each of its bytes lies in `pmem` (R283). -/
theorem Segment.fits_iff (g : Segment) (c : Config) :
    g.fits c = true ↔
      ∀ k, k < g.bytes.length → c.mbase ≤ g.base + k ∧ g.base + k < c.mbase + c.msize := by
  have hfits : g.fits c = true ↔ g.bytes.length = 0 ∨
      (c.mbase ≤ g.base ∧ g.base + g.bytes.length ≤ c.mbase + c.msize) := by
    rw [Segment.fits, Bool.or_eq_true_iff, List.isEmpty_iff_length_eq_zero]
    exact or_congr_right decide_eq_true_iff
  rw [hfits]
  constructor
  · rintro (h | h) k hk <;> omega
  · intro h
    by_cases h0 : g.bytes.length = 0
    · exact .inl h0
    · have hfirst := h 0 (by omega)
      have hlast := h (g.bytes.length - 1) (by omega)
      exact .inr ⟨by omega, by omega⟩

theorem loadImage_cons_fits {g : Segment} {s : State} (rest : List Segment) (h : g.fits s.cfg = true) :
    loadImage (g :: rest) s = loadImage rest { s with mem := s.mem.setBytes g.base g.bytes } := if_pos h

theorem loadImage_cons_refused {g : Segment} {s : State} (rest : List Segment) (h : ¬ g.fits s.cfg = true) :
    loadImage (g :: rest) s = .refused (.imageOutsidePmem g.base g.bytes.length) := if_neg h

/-- Writing a piece that fits keeps the bounds of `pmem`. -/
theorem Segment.within_setBytes {g : Segment} {c : Config} {m : Memory} (hf : g.fits c = true)
    (h : m.within c.pmem) : (m.setBytes g.base g.bytes).within c.pmem := by
  rcases Bool.or_eq_true_iff.mp hf with he | hc
  · rw [List.isEmpty_iff.mp he]
    exact h
  · simp only [covers, decide_eq_true_eq] at hc
    exact Memory.within_setBytes h _ _ hc.1 hc.2

theorem loadImage_keeps_memory {image : List Segment} {s t : State} (h : loadImage image s = .next t)
    (hw : s.mem.wf) (hi : s.mem.within s.cfg.pmem) : t.mem.wf ∧ t.mem.within t.cfg.pmem ∧ t.cfg = s.cfg := by
  induction image generalizing s with
  | nil =>
    obtain rfl := Host.Outcome.next.inj h
    exact ⟨hw, hi, rfl⟩
  | cons g rest ih =>
    by_cases hf : g.fits s.cfg = true
    · rw [loadImage_cons_fits rest hf] at h
      obtain ⟨h1, h2, h3⟩ := ih h (Memory.wf_setBytes hw _ _) (Segment.within_setBytes hf hi)
      exact ⟨h1, h2, h3⟩
    · rw [loadImage_cons_refused rest hf] at h
      cases h

theorem withFetchWord_keeps_memory {s : State} (nbits w : Nat) (hw : s.mem.wf) :
    (s.withFetchWord nbits w).mem.wf := by
  unfold State.withFetchWord
  split
  · exact Memory.wf_setBytes hw _ _
  · exact hw

end Sys2Proof.Machine
end

