-- ==== Sys2Proof/Laws/PerInstr.lean ====
section
/-! SUPPORT. Per instruction: the row of the pattern table that its word matches, and what that row's format reads back
(`30_encoding.md` R93, R96 to R104). -/

namespace Sys2Proof


/-- A row of format `r` matches the word of its instruction and reads its operands back. -/
theorem Row.hit_r {r : Row} {make : RegIdx → RegIdx → RegIdx → Instr} {f7 : BitVec 7} {f3 : BitVec 3} {op : BitVec 7}
    (hs : r.shape = .r make) (hm : r.mask = 0xfe00707f#32) (hf : r.fixed = place f7 25 ||| place f3 12 ||| place op 0)
    (rd rs1 rs2 : RegIdx) :
    r.hits (encodeR f7 rs2 rs1 f3 rd op) = true ∧
      r.shape.read (encodeR f7 rs2 rs1 f3 rd op) = make rd rs1 rs2 := by
  constructor
  · simp only [Row.hits, hm, hf, encodeR_and, beq_self_eq_true]
  · rw [hs]
    simp only [Shape.read]
    rw [rdOf_encodeR, rs1Of_encodeR, rs2Of_encodeR]

/-- A row of format `shift` matches the word of its instruction and reads its operands back. -/
theorem Row.hit_shift {r : Row} {make : RegIdx → RegIdx → BitVec 5 → Instr} {f7 : BitVec 7} {f3 : BitVec 3} {op : BitVec 7}
    (hs : r.shape = .shift make) (hm : r.mask = 0xfe00707f#32) (hf : r.fixed = place f7 25 ||| place f3 12 ||| place op 0)
    (rd rs1 shamt : RegIdx) :
    r.hits (encodeR f7 shamt rs1 f3 rd op) = true ∧
      r.shape.read (encodeR f7 shamt rs1 f3 rd op) = make rd rs1 shamt := by
  constructor
  · simp only [Row.hits, hm, hf, encodeR_and, beq_self_eq_true]
  · rw [hs]
    simp only [Shape.read]
    rw [rdOf_encodeR, rs1Of_encodeR, rs2Of_encodeR]

/-- A row of format `i` matches the word of its instruction and reads its operands back. -/
theorem Row.hit_i {r : Row} {make : RegIdx → RegIdx → BitVec 12 → Instr} {f3 : BitVec 3} {op : BitVec 7}
    (hs : r.shape = .i make) (hm : r.mask = 0x0000707f#32) (hf : r.fixed = place f3 12 ||| place op 0)
    (rd rs1 : RegIdx) (imm : BitVec 12) :
    r.hits (encodeI imm rs1 f3 rd op) = true ∧
      r.shape.read (encodeI imm rs1 f3 rd op) = make rd rs1 imm := by
  constructor
  · simp only [Row.hits, hm, hf, encodeI_and, beq_self_eq_true]
  · rw [hs]
    simp only [Shape.read]
    rw [rdOf_encodeI, rs1Of_encodeI, immIOf_encodeI]

/-- A row of format `csr` matches the word of its instruction and reads its operands back. -/
theorem Row.hit_csr {r : Row} {make : RegIdx → CsrAddr → RegIdx → Instr} {f3 : BitVec 3} {op : BitVec 7}
    (hs : r.shape = .csr make) (hm : r.mask = 0x0000707f#32) (hf : r.fixed = place f3 12 ||| place op 0)
    (rd : RegIdx) (csr : CsrAddr) (rs1 : RegIdx) :
    r.hits (encodeI csr rs1 f3 rd op) = true ∧
      r.shape.read (encodeI csr rs1 f3 rd op) = make rd csr rs1 := by
  constructor
  · simp only [Row.hits, hm, hf, encodeI_and, beq_self_eq_true]
  · rw [hs]
    simp only [Shape.read]
    rw [rdOf_encodeI, rs1Of_encodeI, immIOf_encodeI]

/-- A row of format `s` matches the word of its instruction and reads its operands back. -/
theorem Row.hit_s {r : Row} {make : RegIdx → RegIdx → BitVec 12 → Instr} {f3 : BitVec 3} {op : BitVec 7}
    (hs : r.shape = .s make) (hm : r.mask = 0x0000707f#32) (hf : r.fixed = place f3 12 ||| place op 0)
    (rs2 rs1 : RegIdx) (imm : BitVec 12) :
    r.hits (encodeS imm rs2 rs1 f3 op) = true ∧
      r.shape.read (encodeS imm rs2 rs1 f3 op) = make rs2 rs1 imm := by
  constructor
  · simp only [Row.hits, hm, hf, encodeS_and, beq_self_eq_true]
  · rw [hs]
    simp only [Shape.read]
    rw [rs2Of_encodeS, rs1Of_encodeS, immSOf_encodeS]

/-- A row of format `b` matches the word of its instruction and reads its operands back. -/
theorem Row.hit_b {r : Row} {make : RegIdx → RegIdx → BitVec 13 → Instr} {f3 : BitVec 3} {op : BitVec 7}
    (hs : r.shape = .b make) (hm : r.mask = 0x0000707f#32) (hf : r.fixed = place f3 12 ||| place op 0)
    (rs1 rs2 : RegIdx) (off : BitVec 13) (h : evenOffset off = true) :
    r.hits (encodeB off rs2 rs1 f3 op) = true ∧
      r.shape.read (encodeB off rs2 rs1 f3 op) = make rs1 rs2 off := by
  constructor
  · simp only [Row.hits, hm, hf, encodeB_and, beq_self_eq_true]
  · rw [hs]
    simp only [Shape.read]
    rw [rs1Of_encodeB, rs2Of_encodeB, immBOf_encodeB (h := h)]

/-- A row of format `u` matches the word of its instruction and reads its operands back. -/
theorem Row.hit_u {r : Row} {make : RegIdx → BitVec 20 → Instr} {op : BitVec 7}
    (hs : r.shape = .u make) (hm : r.mask = 0x0000007f#32) (hf : r.fixed = place op 0)
    (rd : RegIdx) (imm : BitVec 20) :
    r.hits (encodeU imm rd op) = true ∧
      r.shape.read (encodeU imm rd op) = make rd imm := by
  constructor
  · simp only [Row.hits, hm, hf, encodeU_and, beq_self_eq_true]
  · rw [hs]
    simp only [Shape.read]
    rw [rdOf_encodeU, immUOf_encodeU]

/-- A row of format `j` matches the word of its instruction and reads its operands back. -/
theorem Row.hit_j {r : Row} {make : RegIdx → BitVec 21 → Instr} {op : BitVec 7}
    (hs : r.shape = .j make) (hm : r.mask = 0x0000007f#32) (hf : r.fixed = place op 0)
    (rd : RegIdx) (off : BitVec 21) (h : evenOffset off = true) :
    r.hits (encodeJ off rd op) = true ∧
      r.shape.read (encodeJ off rd op) = make rd off := by
  constructor
  · simp only [Row.hits, hm, hf, encodeJ_and, beq_self_eq_true]
  · rw [hs]
    simp only [Shape.read]
    rw [rdOf_encodeJ, immJOf_encodeJ (h := h)]

/-- What is said of each well-formed instruction: one of the 50 rows matches its word and reads it back, or it is `inv`
with a word none of them matches. -/
def Laws.RowHit.Statement (i : Instr) : Prop :=
  i.wf = true →
    (∃ r ∈ instrRows, r.hits (encode i) = true ∧ r.shape.read (encode i) = i) ∨ ∃ w, i = .inv w ∧ unmatched w = true

theorem Laws.RowHit.lui (rd : RegIdx) (imm : BitVec 20) :
    Laws.RowHit.Statement (.lui rd imm) :=
  fun _ => .inl ⟨instrRows[0], List.getElem_mem _, Row.hit_u rfl rfl (by decide) rd imm⟩

theorem Laws.RowHit.auipc (rd : RegIdx) (imm : BitVec 20) :
    Laws.RowHit.Statement (.auipc rd imm) :=
  fun _ => .inl ⟨instrRows[1], List.getElem_mem _, Row.hit_u rfl rfl (by decide) rd imm⟩

theorem Laws.RowHit.jal (rd : RegIdx) (off : BitVec 21) :
    Laws.RowHit.Statement (.jal rd off) :=
  fun h => .inl ⟨instrRows[2], List.getElem_mem _, Row.hit_j rfl rfl (by decide) rd off h⟩

theorem Laws.RowHit.jalr (rd rs1 : RegIdx) (imm : BitVec 12) :
    Laws.RowHit.Statement (.jalr rd rs1 imm) :=
  fun _ => .inl ⟨instrRows[3], List.getElem_mem _, Row.hit_i rfl rfl (by decide) rd rs1 imm⟩

theorem Laws.RowHit.beq (rs1 rs2 : RegIdx) (off : BitVec 13) :
    Laws.RowHit.Statement (.beq rs1 rs2 off) :=
  fun h => .inl ⟨instrRows[4], List.getElem_mem _, Row.hit_b rfl rfl (by decide) rs1 rs2 off h⟩

theorem Laws.RowHit.bne (rs1 rs2 : RegIdx) (off : BitVec 13) :
    Laws.RowHit.Statement (.bne rs1 rs2 off) :=
  fun h => .inl ⟨instrRows[5], List.getElem_mem _, Row.hit_b rfl rfl (by decide) rs1 rs2 off h⟩

theorem Laws.RowHit.blt (rs1 rs2 : RegIdx) (off : BitVec 13) :
    Laws.RowHit.Statement (.blt rs1 rs2 off) :=
  fun h => .inl ⟨instrRows[6], List.getElem_mem _, Row.hit_b rfl rfl (by decide) rs1 rs2 off h⟩

theorem Laws.RowHit.bge (rs1 rs2 : RegIdx) (off : BitVec 13) :
    Laws.RowHit.Statement (.bge rs1 rs2 off) :=
  fun h => .inl ⟨instrRows[7], List.getElem_mem _, Row.hit_b rfl rfl (by decide) rs1 rs2 off h⟩

theorem Laws.RowHit.bltu (rs1 rs2 : RegIdx) (off : BitVec 13) :
    Laws.RowHit.Statement (.bltu rs1 rs2 off) :=
  fun h => .inl ⟨instrRows[8], List.getElem_mem _, Row.hit_b rfl rfl (by decide) rs1 rs2 off h⟩

theorem Laws.RowHit.bgeu (rs1 rs2 : RegIdx) (off : BitVec 13) :
    Laws.RowHit.Statement (.bgeu rs1 rs2 off) :=
  fun h => .inl ⟨instrRows[9], List.getElem_mem _, Row.hit_b rfl rfl (by decide) rs1 rs2 off h⟩

theorem Laws.RowHit.lb (rd rs1 : RegIdx) (imm : BitVec 12) :
    Laws.RowHit.Statement (.lb rd rs1 imm) :=
  fun _ => .inl ⟨instrRows[10], List.getElem_mem _, Row.hit_i rfl rfl (by decide) rd rs1 imm⟩

theorem Laws.RowHit.lh (rd rs1 : RegIdx) (imm : BitVec 12) :
    Laws.RowHit.Statement (.lh rd rs1 imm) :=
  fun _ => .inl ⟨instrRows[11], List.getElem_mem _, Row.hit_i rfl rfl (by decide) rd rs1 imm⟩

theorem Laws.RowHit.lw (rd rs1 : RegIdx) (imm : BitVec 12) :
    Laws.RowHit.Statement (.lw rd rs1 imm) :=
  fun _ => .inl ⟨instrRows[12], List.getElem_mem _, Row.hit_i rfl rfl (by decide) rd rs1 imm⟩

theorem Laws.RowHit.lbu (rd rs1 : RegIdx) (imm : BitVec 12) :
    Laws.RowHit.Statement (.lbu rd rs1 imm) :=
  fun _ => .inl ⟨instrRows[13], List.getElem_mem _, Row.hit_i rfl rfl (by decide) rd rs1 imm⟩

theorem Laws.RowHit.lhu (rd rs1 : RegIdx) (imm : BitVec 12) :
    Laws.RowHit.Statement (.lhu rd rs1 imm) :=
  fun _ => .inl ⟨instrRows[14], List.getElem_mem _, Row.hit_i rfl rfl (by decide) rd rs1 imm⟩

theorem Laws.RowHit.sb (rs2 rs1 : RegIdx) (imm : BitVec 12) :
    Laws.RowHit.Statement (.sb rs2 rs1 imm) :=
  fun _ => .inl ⟨instrRows[15], List.getElem_mem _, Row.hit_s rfl rfl (by decide) rs2 rs1 imm⟩

theorem Laws.RowHit.sh (rs2 rs1 : RegIdx) (imm : BitVec 12) :
    Laws.RowHit.Statement (.sh rs2 rs1 imm) :=
  fun _ => .inl ⟨instrRows[16], List.getElem_mem _, Row.hit_s rfl rfl (by decide) rs2 rs1 imm⟩

theorem Laws.RowHit.sw (rs2 rs1 : RegIdx) (imm : BitVec 12) :
    Laws.RowHit.Statement (.sw rs2 rs1 imm) :=
  fun _ => .inl ⟨instrRows[17], List.getElem_mem _, Row.hit_s rfl rfl (by decide) rs2 rs1 imm⟩

theorem Laws.RowHit.addi (rd rs1 : RegIdx) (imm : BitVec 12) :
    Laws.RowHit.Statement (.addi rd rs1 imm) :=
  fun _ => .inl ⟨instrRows[18], List.getElem_mem _, Row.hit_i rfl rfl (by decide) rd rs1 imm⟩

theorem Laws.RowHit.slti (rd rs1 : RegIdx) (imm : BitVec 12) :
    Laws.RowHit.Statement (.slti rd rs1 imm) :=
  fun _ => .inl ⟨instrRows[19], List.getElem_mem _, Row.hit_i rfl rfl (by decide) rd rs1 imm⟩

theorem Laws.RowHit.sltiu (rd rs1 : RegIdx) (imm : BitVec 12) :
    Laws.RowHit.Statement (.sltiu rd rs1 imm) :=
  fun _ => .inl ⟨instrRows[20], List.getElem_mem _, Row.hit_i rfl rfl (by decide) rd rs1 imm⟩

theorem Laws.RowHit.xori (rd rs1 : RegIdx) (imm : BitVec 12) :
    Laws.RowHit.Statement (.xori rd rs1 imm) :=
  fun _ => .inl ⟨instrRows[21], List.getElem_mem _, Row.hit_i rfl rfl (by decide) rd rs1 imm⟩

theorem Laws.RowHit.ori (rd rs1 : RegIdx) (imm : BitVec 12) :
    Laws.RowHit.Statement (.ori rd rs1 imm) :=
  fun _ => .inl ⟨instrRows[22], List.getElem_mem _, Row.hit_i rfl rfl (by decide) rd rs1 imm⟩

theorem Laws.RowHit.andi (rd rs1 : RegIdx) (imm : BitVec 12) :
    Laws.RowHit.Statement (.andi rd rs1 imm) :=
  fun _ => .inl ⟨instrRows[23], List.getElem_mem _, Row.hit_i rfl rfl (by decide) rd rs1 imm⟩

theorem Laws.RowHit.slli (rd rs1 : RegIdx) (shamt : BitVec 5) :
    Laws.RowHit.Statement (.slli rd rs1 shamt) :=
  fun _ => .inl ⟨instrRows[24], List.getElem_mem _, Row.hit_shift rfl rfl (by decide) rd rs1 shamt⟩

theorem Laws.RowHit.srli (rd rs1 : RegIdx) (shamt : BitVec 5) :
    Laws.RowHit.Statement (.srli rd rs1 shamt) :=
  fun _ => .inl ⟨instrRows[25], List.getElem_mem _, Row.hit_shift rfl rfl (by decide) rd rs1 shamt⟩

theorem Laws.RowHit.srai (rd rs1 : RegIdx) (shamt : BitVec 5) :
    Laws.RowHit.Statement (.srai rd rs1 shamt) :=
  fun _ => .inl ⟨instrRows[26], List.getElem_mem _, Row.hit_shift rfl rfl (by decide) rd rs1 shamt⟩

theorem Laws.RowHit.add (rd rs1 rs2 : RegIdx) :
    Laws.RowHit.Statement (.add rd rs1 rs2) :=
  fun _ => .inl ⟨instrRows[27], List.getElem_mem _, Row.hit_r rfl rfl (by decide) rd rs1 rs2⟩

theorem Laws.RowHit.sub (rd rs1 rs2 : RegIdx) :
    Laws.RowHit.Statement (.sub rd rs1 rs2) :=
  fun _ => .inl ⟨instrRows[28], List.getElem_mem _, Row.hit_r rfl rfl (by decide) rd rs1 rs2⟩

theorem Laws.RowHit.sll (rd rs1 rs2 : RegIdx) :
    Laws.RowHit.Statement (.sll rd rs1 rs2) :=
  fun _ => .inl ⟨instrRows[29], List.getElem_mem _, Row.hit_r rfl rfl (by decide) rd rs1 rs2⟩

theorem Laws.RowHit.slt (rd rs1 rs2 : RegIdx) :
    Laws.RowHit.Statement (.slt rd rs1 rs2) :=
  fun _ => .inl ⟨instrRows[30], List.getElem_mem _, Row.hit_r rfl rfl (by decide) rd rs1 rs2⟩

theorem Laws.RowHit.sltu (rd rs1 rs2 : RegIdx) :
    Laws.RowHit.Statement (.sltu rd rs1 rs2) :=
  fun _ => .inl ⟨instrRows[31], List.getElem_mem _, Row.hit_r rfl rfl (by decide) rd rs1 rs2⟩

theorem Laws.RowHit.xor (rd rs1 rs2 : RegIdx) :
    Laws.RowHit.Statement (.xor rd rs1 rs2) :=
  fun _ => .inl ⟨instrRows[32], List.getElem_mem _, Row.hit_r rfl rfl (by decide) rd rs1 rs2⟩

theorem Laws.RowHit.srl (rd rs1 rs2 : RegIdx) :
    Laws.RowHit.Statement (.srl rd rs1 rs2) :=
  fun _ => .inl ⟨instrRows[33], List.getElem_mem _, Row.hit_r rfl rfl (by decide) rd rs1 rs2⟩

theorem Laws.RowHit.sra (rd rs1 rs2 : RegIdx) :
    Laws.RowHit.Statement (.sra rd rs1 rs2) :=
  fun _ => .inl ⟨instrRows[34], List.getElem_mem _, Row.hit_r rfl rfl (by decide) rd rs1 rs2⟩

theorem Laws.RowHit.or (rd rs1 rs2 : RegIdx) :
    Laws.RowHit.Statement (.or rd rs1 rs2) :=
  fun _ => .inl ⟨instrRows[35], List.getElem_mem _, Row.hit_r rfl rfl (by decide) rd rs1 rs2⟩

theorem Laws.RowHit.and (rd rs1 rs2 : RegIdx) :
    Laws.RowHit.Statement (.and rd rs1 rs2) :=
  fun _ => .inl ⟨instrRows[36], List.getElem_mem _, Row.hit_r rfl rfl (by decide) rd rs1 rs2⟩

theorem Laws.RowHit.mul (rd rs1 rs2 : RegIdx) :
    Laws.RowHit.Statement (.mul rd rs1 rs2) :=
  fun _ => .inl ⟨instrRows[37], List.getElem_mem _, Row.hit_r rfl rfl (by decide) rd rs1 rs2⟩

theorem Laws.RowHit.mulh (rd rs1 rs2 : RegIdx) :
    Laws.RowHit.Statement (.mulh rd rs1 rs2) :=
  fun _ => .inl ⟨instrRows[38], List.getElem_mem _, Row.hit_r rfl rfl (by decide) rd rs1 rs2⟩

theorem Laws.RowHit.mulhsu (rd rs1 rs2 : RegIdx) :
    Laws.RowHit.Statement (.mulhsu rd rs1 rs2) :=
  fun _ => .inl ⟨instrRows[39], List.getElem_mem _, Row.hit_r rfl rfl (by decide) rd rs1 rs2⟩

theorem Laws.RowHit.mulhu (rd rs1 rs2 : RegIdx) :
    Laws.RowHit.Statement (.mulhu rd rs1 rs2) :=
  fun _ => .inl ⟨instrRows[40], List.getElem_mem _, Row.hit_r rfl rfl (by decide) rd rs1 rs2⟩

theorem Laws.RowHit.div (rd rs1 rs2 : RegIdx) :
    Laws.RowHit.Statement (.div rd rs1 rs2) :=
  fun _ => .inl ⟨instrRows[41], List.getElem_mem _, Row.hit_r rfl rfl (by decide) rd rs1 rs2⟩

theorem Laws.RowHit.divu (rd rs1 rs2 : RegIdx) :
    Laws.RowHit.Statement (.divu rd rs1 rs2) :=
  fun _ => .inl ⟨instrRows[42], List.getElem_mem _, Row.hit_r rfl rfl (by decide) rd rs1 rs2⟩

theorem Laws.RowHit.rem (rd rs1 rs2 : RegIdx) :
    Laws.RowHit.Statement (.rem rd rs1 rs2) :=
  fun _ => .inl ⟨instrRows[43], List.getElem_mem _, Row.hit_r rfl rfl (by decide) rd rs1 rs2⟩

theorem Laws.RowHit.remu (rd rs1 rs2 : RegIdx) :
    Laws.RowHit.Statement (.remu rd rs1 rs2) :=
  fun _ => .inl ⟨instrRows[44], List.getElem_mem _, Row.hit_r rfl rfl (by decide) rd rs1 rs2⟩

theorem Laws.RowHit.ecall : Laws.RowHit.Statement .ecall :=
  fun _ => .inl ⟨instrRows[45], List.getElem_mem _, by decide, rfl⟩

theorem Laws.RowHit.ebreak : Laws.RowHit.Statement .ebreak :=
  fun _ => .inl ⟨instrRows[46], List.getElem_mem _, by decide, rfl⟩

theorem Laws.RowHit.mret : Laws.RowHit.Statement .mret :=
  fun _ => .inl ⟨instrRows[47], List.getElem_mem _, by decide, rfl⟩

theorem Laws.RowHit.csrrw (rd : RegIdx) (csr : CsrAddr) (rs1 : RegIdx) :
    Laws.RowHit.Statement (.csrrw rd csr rs1) :=
  fun _ => .inl ⟨instrRows[48], List.getElem_mem _, Row.hit_csr rfl rfl (by decide) rd csr rs1⟩

theorem Laws.RowHit.csrrs (rd : RegIdx) (csr : CsrAddr) (rs1 : RegIdx) :
    Laws.RowHit.Statement (.csrrs rd csr rs1) :=
  fun _ => .inl ⟨instrRows[49], List.getElem_mem _, Row.hit_csr rfl rfl (by decide) rd csr rs1⟩

theorem Laws.RowHit.inv (word : Word) : Laws.RowHit.Statement (.inv word) :=
  fun h => .inr ⟨word, rfl, h⟩

end Sys2Proof
end

