-- ==== Sys2Proof/Tests/Slice0.lean ====
section
/-! SUPPORT. Small tests, and for each obligation with hypotheses a witness that meets them. Expected results are the
spec's own: the encodings of `30_encoding.md` R91, the worked examples of each instruction's rule, and the vectors of
`95_test_vectors.md`, named by their ids. -/

namespace Sys2Proof.Tests

open Sys2Proof Sys2Proof.Machine

/-! ## Helpers -/

/-- A state at `pc` with a word placed there, and with registers, CSRs and little-endian memory values set. -/
def placed (c : Config) (pc : Word) (w : Nat) (regs : List (RegIdx × Word)) (csrs : List (CsrAddr × Word))
    (mem : List (Nat × Nat × Word)) : State :=
  let s1 := regs.foldl (fun s p => s.setReg p.1 p.2) { State.resetWith c with pc := pc }
  let s2 := csrs.foldl (fun s p => s.setCsr p.1 p.2) s1
  State.withFetchWord { s2 with mem := mem.foldl (fun m p => m.write p.1 p.2.1 p.2.2) s2.mem } 32 w

/-- Parameters that differ from the defaults: a device region, the register reading of SHIFT, faulting division, an
external handler. -/
def demoConfig : Config :=
  { Config.default with
    deviceRegions := [⟨0xa0000000, 0x10⟩], shamtSource := .register, divCorner := .fault, trapHandler := .external }

/-- What a test asks of the state after one step. -/
def after (s : State) (p : State → Bool) : Bool :=
  match step s with
  | .next t => p t
  | .fault _ | .refused _ => false

/-! ## Well-formedness refuses what no word encodes -/

theorem test_wf_refuses_odd_branch_offsets :
    (Instr.beq 1#5 2#5 3#13).wf = false ∧ (Instr.bne 1#5 2#5 1#13).wf = false ∧
    (Instr.blt 1#5 2#5 5#13).wf = false ∧ (Instr.bge 1#5 2#5 (-1)).wf = false ∧
    (Instr.bltu 1#5 2#5 7#13).wf = false ∧ (Instr.bgeu 1#5 2#5 (-3)).wf = false := by decide

theorem test_wf_refuses_odd_jump_offsets : (Instr.jal 1#5 2049#21).wf = false := by decide

theorem test_wf_refuses_inv_with_a_matched_word : (Instr.inv 0x00000013#32).wf = false := by decide

/-! ## Decoding: words written out from the encodings -/

/-- One word per family, field by field as R91 lays the formats out. -/
theorem test_decode_fields :
    decodeWord 0b0100000_01100_01011_000_01010_0110011#32 = .sub 10#5 11#5 12#5 ∧
    decodeWord 0b111111111111_01011_011_01010_0010011#32 = .sltiu 10#5 11#5 (-1) ∧
    decodeWord 0b0000000_11111_01011_001_01010_0010011#32 = .slli 10#5 11#5 31#5 ∧
    decodeWord 0b10000000000000000001_01010_0010111#32 = .auipc 10#5 0x80001#20 ∧
    decodeWord 0b0000001_01100_01011_010_01010_0110011#32 = .mulhsu 10#5 11#5 12#5 ∧
    decodeWord 0b111111111110_01011_001_01010_0000011#32 = .lh 10#5 11#5 (-2) ∧
    decodeWord 0b1000000_01100_01011_000_00001_0100011#32 = .sb 12#5 11#5 (-2047) ∧
    decodeWord 0b1000000_01100_01011_111_00000_1100011#32 = .bgeu 11#5 12#5 (-4096) ∧
    decodeWord 0b0000000_01100_01011_000_00001_1100011#32 = .beq 11#5 12#5 2048#13 ∧
    decodeWord 0b0_0000000000_1_00000000_00001_1101111#32 = .jal 1#5 2048#21 ∧
    decodeWord 0b1_0000000001_0_00000001_00001_1101111#32 = .jal 1#5 (-1044478) ∧
    decodeWord 0b001101000001_01011_010_01010_1110011#32 = .csrrs 10#5 0x341#12 11#5 ∧
    decodeWord 0b0000000_00001_00000_000_00000_1110011#32 = .ebreak := by decide

/-- The example words of R131 to R151. -/
theorem test_decode_alu :
    decodeWord 0x12345537#32 = .lui 10#5 0x12345#20 ∧ decodeWord 0x00000517#32 = .auipc 10#5 0#20 ∧
    decodeWord 0x80058513#32 = .addi 10#5 11#5 (-2048) ∧ decodeWord 0x0005a513#32 = .slti 10#5 11#5 0#12 ∧
    decodeWord 0xfff5b513#32 = .sltiu 10#5 11#5 (-1) ∧ decodeWord 0xfff5c513#32 = .xori 10#5 11#5 (-1) ∧
    decodeWord 0x7ff5e513#32 = .ori 10#5 11#5 0x7ff#12 ∧ decodeWord 0xf005f513#32 = .andi 10#5 11#5 (-256) ∧
    decodeWord 0x01f59513#32 = .slli 10#5 11#5 31#5 ∧ decodeWord 0x01f5d513#32 = .srli 10#5 11#5 31#5 ∧
    decodeWord 0x41f5d513#32 = .srai 10#5 11#5 31#5 := by decide

/-- The example words of R142 to R151. -/
theorem test_decode_registers :
    decodeWord 0x00c58533#32 = .add 10#5 11#5 12#5 ∧ decodeWord 0x40c58533#32 = .sub 10#5 11#5 12#5 ∧
    decodeWord 0x00c59533#32 = .sll 10#5 11#5 12#5 ∧ decodeWord 0x00c5a533#32 = .slt 10#5 11#5 12#5 ∧
    decodeWord 0x00c5b533#32 = .sltu 10#5 11#5 12#5 ∧ decodeWord 0x00b5c533#32 = .xor 10#5 11#5 11#5 ∧
    decodeWord 0x00c5d533#32 = .srl 10#5 11#5 12#5 ∧ decodeWord 0x40c5d533#32 = .sra 10#5 11#5 12#5 ∧
    decodeWord 0x00c5e533#32 = .or 10#5 11#5 12#5 ∧ decodeWord 0x00c5f533#32 = .and 10#5 11#5 12#5 := by decide

/-- The example words of R171 to R178. -/
theorem test_decode_muldiv :
    decodeWord 0x02c58533#32 = .mul 10#5 11#5 12#5 ∧ decodeWord 0x02c59533#32 = .mulh 10#5 11#5 12#5 ∧
    decodeWord 0x02c5a533#32 = .mulhsu 10#5 11#5 12#5 ∧ decodeWord 0x02c5b533#32 = .mulhu 10#5 11#5 12#5 ∧
    decodeWord 0x02c5c533#32 = .div 10#5 11#5 12#5 ∧ decodeWord 0x0205d533#32 = .divu 10#5 11#5 0#5 ∧
    decodeWord 0x02c5e533#32 = .rem 10#5 11#5 12#5 ∧ decodeWord 0x02c5f533#32 = .remu 10#5 11#5 12#5 := by decide

/-- The example words of R191 to R198. -/
theorem test_decode_memory :
    decodeWord 0x00058503#32 = .lb 10#5 11#5 0#12 ∧ decodeWord 0x00259503#32 = .lh 10#5 11#5 2#12 ∧
    decodeWord 0xffc5a503#32 = .lw 10#5 11#5 (-4) ∧ decodeWord 0x0005c503#32 = .lbu 10#5 11#5 0#12 ∧
    decodeWord 0x0025d503#32 = .lhu 10#5 11#5 2#12 ∧ decodeWord 0x00c580a3#32 = .sb 12#5 11#5 1#12 ∧
    decodeWord 0x00c59123#32 = .sh 12#5 11#5 2#12 ∧ decodeWord 0x00c5a023#32 = .sw 12#5 11#5 0#12 := by decide

/-- The example words of R211 to R218. -/
theorem test_decode_control :
    decodeWord 0x00b50863#32 = .beq 10#5 11#5 16#13 ∧ decodeWord 0xfeb51ee3#32 = .bne 10#5 11#5 (-4) ∧
    decodeWord 0x00b54463#32 = .blt 10#5 11#5 8#13 ∧ decodeWord 0x00b55463#32 = .bge 10#5 11#5 8#13 ∧
    decodeWord 0x00b56463#32 = .bltu 10#5 11#5 8#13 ∧ decodeWord 0x00b57463#32 = .bgeu 10#5 11#5 8#13 ∧
    decodeWord 0x001000ef#32 = .jal 1#5 2048#21 ∧ decodeWord 0x7ffff0ef#32 = .jal 1#5 1048574#21 ∧
    decodeWord 0x003500e7#32 = .jalr 1#5 10#5 3#12 := by decide

/-- The example words of R230 to R245. -/
theorem test_decode_system :
    decodeWord 0x00000073#32 = .ecall ∧ decodeWord 0x00100073#32 = .ebreak ∧ decodeWord 0x30200073#32 = .mret ∧
    decodeWord 0x30559573#32 = .csrrw 10#5 0x305#12 11#5 ∧ decodeWord 0x3005a573#32 = .csrrs 10#5 0x300#12 11#5 ∧
    decodeWord 0x0ff0000f#32 = .inv 0x0ff0000f#32 := by decide

/-- The immediates of D-04 to D-09 and D-14. -/
theorem test_decode_immediates :
    decodeWord 0xfec5afa3#32 = .sw 12#5 11#5 (-1) ∧ decodeWord 0x7e05afa3#32 = .sw 0#5 11#5 2047#12 ∧
    decodeWord 0x80000023#32 = .sb 0#5 0#5 (-2048) ∧ decodeWord 0x80000063#32 = .beq 0#5 0#5 (-4096) ∧
    decodeWord 0x7e000fe3#32 = .beq 0#5 0#5 4094#13 ∧ decodeWord 0xfe029ce3#32 = .bne 5#5 0#5 (-8) ∧
    decodeWord 0x8000006f#32 = .jal 0#5 (-1048576) := by decide

/-- Invalid words of 2.7: INV-01, INV-04, INV-10, INV-11, INV-13 to INV-17. -/
theorem test_decode_invalid :
    decodeWord 0x00000000#32 = .inv 0x00000000#32 ∧ decodeWord 0x0000100f#32 = .inv 0x0000100f#32 ∧
    decodeWord 0x00000173#32 = .inv 0x00000173#32 ∧ decodeWord 0x02001013#32 = .inv 0x02001013#32 ∧
    decodeWord 0x4000c033#32 = .inv 0x4000c033#32 ∧ decodeWord 0x00001067#32 = .inv 0x00001067#32 ∧
    decodeWord 0x0000b003#32 = .inv 0x0000b003#32 ∧ decodeWord 0x00003023#32 = .inv 0x00003023#32 ∧
    decodeWord 0x00002063#32 = .inv 0x00002063#32 := by decide

/-- The bytes of a word lie least significant first, and three bytes hold no instruction (R90). -/
theorem test_decode_bytes :
    decode [0x37#8, 0x55#8, 0x34#8, 0x12#8, 0xFF#8] = .ok (.lui 10#5 0x12345#20, [0xFF#8]) ∧
    decode [0x37#8, 0x55#8, 0x34#8] = .error (.tooShort 3) := ⟨rfl, rfl⟩

/-- Each row's mask and fixed bits are those of its pattern string (R92, R93), and the table has 51 rows. -/
theorem test_patterns_give_masks :
    table.length = 51 ∧ ∀ r ∈ table, patternMask r.pattern = r.mask ∧ patternFixed r.pattern = r.fixed := by
  decide +kernel

/-! ## Assembler text (R109) and register names (R33) -/

theorem test_assembler_text :
    asmText (.lw 10#5 11#5 (-4)) = "lw a0, -4(a1)" ∧ asmText (.addi 10#5 11#5 (-2048)) = "addi a0, a1, -2048" ∧
    asmText (.csrrw 10#5 0x305#12 11#5) = "csrrw a0, mtvec, a1" ∧ regOfName "fp" = some 8#5 ∧
    regOfName "t6" = some 31#5 ∧ regOfName "x31" = some 31#5 ∧ regOfName "x32" = none := by decide

/-! ## Steps -/

/-- ALU-01: `lui a0, 0x12345`. -/
theorem test_step_lui :
    after (placed Config.default 0x80000000#32 0x12345537 [] [] [])
      (fun t => t.reg 10#5 == 0x12345000#32 && t.pc == 0x80000004#32) = true := by decide

/-- ALU-03: `auipc a0, 0x80000`. -/
theorem test_step_auipc_wraps :
    after (placed Config.default 0x80000000#32 0x80000517 [] [] [])
      (fun t => t.reg 10#5 == 0x00000000#32 && t.pc == 0x80000004#32) = true := by decide

/-- ALU-08: `addi a0, a1, 1`. -/
theorem test_step_addi_wraps :
    after (placed Config.default 0x80000000#32 0x00158513 [(11#5, 0xffffffff#32)] [] [])
      (fun t => t.reg 10#5 == 0x00000000#32 && t.pc == 0x80000004#32) = true := by decide

/-- ALU-11: `slti a0, a1, -1`. -/
theorem test_step_slti_negative :
    after (placed Config.default 0x80000000#32 0xfff5a513 [(11#5, 0x80000000#32)] [] [])
      (fun t => t.reg 10#5 == 0x00000001#32 && t.pc == 0x80000004#32) = true := by decide

/-- ALU-17: `sltiu a0, a1, -1`. -/
theorem test_step_sltiu_sign_extends :
    after (placed Config.default 0x80000000#32 0xfff5b513 [(11#5, 0xffffffff#32)] [] [])
      (fun t => t.reg 10#5 == 0x00000000#32 && t.pc == 0x80000004#32) = true := by decide

/-- ALU-18: `xori a0, a1, -1 (not)`. -/
theorem test_step_xori_not :
    after (placed Config.default 0x80000000#32 0xfff5c513 [(11#5, 0x0f0f0f0f#32)] [] [])
      (fun t => t.reg 10#5 == 0xf0f0f0f0#32 && t.pc == 0x80000004#32) = true := by decide

/-- ALU-20: `ori a0, a1, -16`. -/
theorem test_step_ori_negative :
    after (placed Config.default 0x80000000#32 0xff05e513 [(11#5, 0x00000005#32)] [] [])
      (fun t => t.reg 10#5 == 0xfffffff5#32 && t.pc == 0x80000004#32) = true := by decide

/-- ALU-21: `andi a0, a1, -256`. -/
theorem test_step_andi_negative :
    after (placed Config.default 0x80000000#32 0xf005f513 [(11#5, 0x123456ff#32)] [] [])
      (fun t => t.reg 10#5 == 0x12345600#32 && t.pc == 0x80000004#32) = true := by decide

/-- ALU-23: `slli a0, a1, 31`. -/
theorem test_step_slli_31 :
    after (placed Config.default 0x80000000#32 0x01f59513 [(11#5, 0x00000003#32)] [] [])
      (fun t => t.reg 10#5 == 0x80000000#32 && t.pc == 0x80000004#32) = true := by decide

/-- ALU-26: `srli a0, a1, 31`. -/
theorem test_step_srli_31 :
    after (placed Config.default 0x80000000#32 0x01f5d513 [(11#5, 0xffffffff#32)] [] [])
      (fun t => t.reg 10#5 == 0x00000001#32 && t.pc == 0x80000004#32) = true := by decide

/-- ALU-29: `srai a0, a1, 31`. -/
theorem test_step_srai_31 :
    after (placed Config.default 0x80000000#32 0x41f5d513 [(11#5, 0x80000000#32)] [] [])
      (fun t => t.reg 10#5 == 0xffffffff#32 && t.pc == 0x80000004#32) = true := by decide

/-- ALU-49: `add a1, a1, a1 (rd = rs1 = rs2)`. -/
theorem test_step_add_source_is_destination :
    after (placed Config.default 0x80000000#32 0x00b585b3 [(11#5, 0x40000001#32)] [] [])
      (fun t => t.reg 11#5 == 0x80000002#32 && t.pc == 0x80000004#32) = true := by decide

/-- E2-02: `add zero, a1, a2`. -/
theorem test_step_add_to_zero :
    after (placed Config.default 0x80000000#32 0x00c58033 [(11#5, 0x00000001#32), (12#5, 0x00000002#32)] [] [])
      (fun t => t.reg 0#5 == 0x00000000#32 && t.pc == 0x80000004#32) = true := by decide

/-- ALU-32: `sub a0, a1, a2`. -/
theorem test_step_sub_wraps :
    after (placed Config.default 0x80000000#32 0x40c58533 [(11#5, 0x00000000#32), (12#5, 0x00000001#32)] [] [])
      (fun t => t.reg 10#5 == 0xffffffff#32 && t.pc == 0x80000004#32) = true := by decide

/-- ALU-35: `sll a0, a1, a2`. -/
theorem test_step_sll_amount_mod_32 :
    after (placed Config.default 0x80000000#32 0x00c59533 [(11#5, 0x00000001#32), (12#5, 0xffffffe1#32)] [] [])
      (fun t => t.reg 10#5 == 0x00000002#32 && t.pc == 0x80000004#32) = true := by decide

/-- ALU-37: `slt a0, a1, a2`. -/
theorem test_step_slt_signed :
    after (placed Config.default 0x80000000#32 0x00c5a533 [(11#5, 0xffffffff#32), (12#5, 0x00000000#32)] [] [])
      (fun t => t.reg 10#5 == 0x00000001#32 && t.pc == 0x80000004#32) = true := by decide

/-- ALU-39: `sltu a0, a1, a2`. -/
theorem test_step_sltu_unsigned :
    after (placed Config.default 0x80000000#32 0x00c5b533 [(11#5, 0xffffffff#32), (12#5, 0x00000000#32)] [] [])
      (fun t => t.reg 10#5 == 0x00000000#32 && t.pc == 0x80000004#32) = true := by decide

/-- ALU-41: `xor a0, a1, a2`. -/
theorem test_step_xor :
    after (placed Config.default 0x80000000#32 0x00c5c533 [(11#5, 0xff00ff00#32), (12#5, 0x0ff00ff0#32)] [] [])
      (fun t => t.reg 10#5 == 0xf0f0f0f0#32 && t.pc == 0x80000004#32) = true := by decide

/-- ALU-42: `srl a0, a1, a2`. -/
theorem test_step_srl_amount_mod_32 :
    after (placed Config.default 0x80000000#32 0x00c5d533 [(11#5, 0x80000000#32), (12#5, 0x00000021#32)] [] [])
      (fun t => t.reg 10#5 == 0x40000000#32 && t.pc == 0x80000004#32) = true := by decide

/-- ALU-45: `sra a0, a1, a2`. -/
theorem test_step_sra_amount_mod_32 :
    after (placed Config.default 0x80000000#32 0x40c5d533 [(11#5, 0x80000000#32), (12#5, 0x00000020#32)] [] [])
      (fun t => t.reg 10#5 == 0x80000000#32 && t.pc == 0x80000004#32) = true := by decide

/-- ALU-47: `or a0, a1, a2`. -/
theorem test_step_or :
    after (placed Config.default 0x80000000#32 0x00c5e533 [(11#5, 0xf0000000#32), (12#5, 0x0000000f#32)] [] [])
      (fun t => t.reg 10#5 == 0xf000000f#32 && t.pc == 0x80000004#32) = true := by decide

/-- ALU-48: `and a0, a1, a2`. -/
theorem test_step_and :
    after (placed Config.default 0x80000000#32 0x00c5f533 [(11#5, 0xff00ff00#32), (12#5, 0xf0f0f0f0#32)] [] [])
      (fun t => t.reg 10#5 == 0xf000f000#32 && t.pc == 0x80000004#32) = true := by decide

/-- MD-17: `mul a0, a1, a2`. -/
theorem test_step_mul :
    after (placed Config.default 0x80000000#32 0x02c58533 [(11#5, 0x12345678#32), (12#5, 0x9abcdef0#32)] [] [])
      (fun t => t.reg 10#5 == 0x242d2080#32 && t.pc == 0x80000004#32) = true := by decide

/-- MD-18: `mulh a0, a1, a2`. -/
theorem test_step_mulh :
    after (placed Config.default 0x80000000#32 0x02c59533 [(11#5, 0x12345678#32), (12#5, 0x9abcdef0#32)] [] [])
      (fun t => t.reg 10#5 == 0xf8cc93d6#32 && t.pc == 0x80000004#32) = true := by decide

/-- MD-07: `mulhsu a0, a1, a2`. -/
theorem test_step_mulhsu_negative :
    after (placed Config.default 0x80000000#32 0x02c5a533 [(11#5, 0xffffffff#32), (12#5, 0xffffffff#32)] [] [])
      (fun t => t.reg 10#5 == 0xffffffff#32 && t.pc == 0x80000004#32) = true := by decide

/-- MD-19: `mulhsu a0, a1, a2`. -/
theorem test_step_mulhsu :
    after (placed Config.default 0x80000000#32 0x02c5a533 [(11#5, 0x12345678#32), (12#5, 0x9abcdef0#32)] [] [])
      (fun t => t.reg 10#5 == 0x0b00ea4e#32 && t.pc == 0x80000004#32) = true := by decide

/-- MD-16: `mulhu a0, a1, a2`. -/
theorem test_step_mulhu :
    after (placed Config.default 0x80000000#32 0x02c5b533 [(11#5, 0x80000000#32), (12#5, 0xffffffff#32)] [] [])
      (fun t => t.reg 10#5 == 0x7fffffff#32 && t.pc == 0x80000004#32) = true := by decide

/-- MD-33: `div a0, a1, a2`. -/
theorem test_step_div_toward_zero :
    after (placed Config.default 0x80000000#32 0x02c5c533 [(11#5, 0xfffffff9#32), (12#5, 0x00000002#32)] [] [])
      (fun t => t.reg 10#5 == 0xfffffffd#32 && t.pc == 0x80000004#32) = true := by decide

/-- MD-57: `div a0, a1, a2`. -/
theorem test_step_div_overflow :
    after (placed Config.default 0x80000000#32 0x02c5c533 [(11#5, 0x80000000#32), (12#5, 0xffffffff#32)] [] [])
      (fun t => t.reg 10#5 == 0x80000000#32 && t.pc == 0x80000004#32) = true := by decide

/-- MD-34: `divu a0, a1, a2`. -/
theorem test_step_divu :
    after (placed Config.default 0x80000000#32 0x02c5d533 [(11#5, 0xfffffff9#32), (12#5, 0x00000002#32)] [] [])
      (fun t => t.reg 10#5 == 0x7ffffffc#32 && t.pc == 0x80000004#32) = true := by decide

/-- MD-46: `divu a0, a1, a2`. -/
theorem test_step_divu_by_zero :
    after (placed Config.default 0x80000000#32 0x02c5d533 [(11#5, 0x00000005#32), (12#5, 0x00000000#32)] [] [])
      (fun t => t.reg 10#5 == 0xffffffff#32 && t.pc == 0x80000004#32) = true := by decide

/-- MD-35: `rem a0, a1, a2`. -/
theorem test_step_rem_sign :
    after (placed Config.default 0x80000000#32 0x02c5e533 [(11#5, 0xfffffff9#32), (12#5, 0x00000002#32)] [] [])
      (fun t => t.reg 10#5 == 0xffffffff#32 && t.pc == 0x80000004#32) = true := by decide

/-- MD-47: `rem a0, a1, a2`. -/
theorem test_step_rem_by_zero :
    after (placed Config.default 0x80000000#32 0x02c5e533 [(11#5, 0x00000005#32), (12#5, 0x00000000#32)] [] [])
      (fun t => t.reg 10#5 == 0x00000005#32 && t.pc == 0x80000004#32) = true := by decide

/-- MD-36: `remu a0, a1, a2`. -/
theorem test_step_remu :
    after (placed Config.default 0x80000000#32 0x02c5f533 [(11#5, 0xfffffff9#32), (12#5, 0x00000002#32)] [] [])
      (fun t => t.reg 10#5 == 0x00000001#32 && t.pc == 0x80000004#32) = true := by decide

/-- MD-48: `remu a0, a1, a2`. -/
theorem test_step_remu_by_zero :
    after (placed Config.default 0x80000000#32 0x02c5f533 [(11#5, 0x00000005#32), (12#5, 0x00000000#32)] [] [])
      (fun t => t.reg 10#5 == 0x00000005#32 && t.pc == 0x80000004#32) = true := by decide

/-- MDF-05: `div a0, a1, a2`. -/
theorem test_step_div_overflow_fault :
    after (placed demoConfig 0x80000000#32 0x02c5c533 [(10#5, 0x00001234#32), (11#5, 0x80000000#32),
      (12#5, 0xffffffff#32)] [] [])
      (fun t => t.run == .aborted (.divideCorner 0x80000000#32) && t.pc == 0x80000000#32 &&
        t.reg 10#5 == 0x00001234#32) = true := by decide

/-- MDF-08: `remu a0, a1, a2`. -/
theorem test_step_remu_no_corner :
    after (placed demoConfig 0x80000000#32 0x02c5f533 [(11#5, 0x80000000#32), (12#5, 0xffffffff#32)] [] [])
      (fun t => t.reg 10#5 == 0x80000000#32 && t.pc == 0x80000004#32) = true := by decide

/-- LS-04: `lb a0, 3(a1)`. -/
theorem test_step_lb_sign :
    after (placed Config.default 0x80000000#32 0x00358503 [(11#5, 0x80001000#32)] []
      [(0x80001000, 4, 0x8001abcd#32), (0x80001004, 4, 0x88776655#32)])
      (fun t => t.reg 10#5 == 0xffffff80#32 && t.pc == 0x80000004#32) = true := by decide

/-- LS-11: `lh a0, 3(a1) (misaligned)`. -/
theorem test_step_lh_misaligned :
    after (placed Config.default 0x80000000#32 0x00359503 [(11#5, 0x80001000#32)] []
      [(0x80001000, 4, 0x8001abcd#32), (0x80001004, 4, 0x88776655#32)])
      (fun t => t.reg 10#5 == 0x00005580#32 && t.pc == 0x80000004#32) = true := by decide

/-- LS-14: `lw a0, 1(a1) (misaligned)`. -/
theorem test_step_lw_misaligned :
    after (placed Config.default 0x80000000#32 0x0015a503 [(11#5, 0x80001000#32)] []
      [(0x80001000, 4, 0x8001abcd#32), (0x80001004, 4, 0x88776655#32)])
      (fun t => t.reg 10#5 == 0x558001ab#32 && t.pc == 0x80000004#32) = true := by decide

/-- LS-05: `lbu a0, 3(a1)`. -/
theorem test_step_lbu_zero :
    after (placed Config.default 0x80000000#32 0x0035c503 [(11#5, 0x80001000#32)] []
      [(0x80001000, 4, 0x8001abcd#32), (0x80001004, 4, 0x88776655#32)])
      (fun t => t.reg 10#5 == 0x00000080#32 && t.pc == 0x80000004#32) = true := by decide

/-- LS-12: `lhu a0, 1(a1) (misaligned)`. -/
theorem test_step_lhu_misaligned :
    after (placed Config.default 0x80000000#32 0x0015d503 [(11#5, 0x80001000#32)] []
      [(0x80001000, 4, 0x8001abcd#32), (0x80001004, 4, 0x88776655#32)])
      (fun t => t.reg 10#5 == 0x000001ab#32 && t.pc == 0x80000004#32) = true := by decide

/-- LS-23: `lw a0, 0(a1) (straddles the end)`. -/
theorem test_step_lw_straddles_the_end :
    after (placed Config.default 0x80000000#32 0x0005a503 [(11#5, 0x87fffffe#32)] [] [])
      (fun t => t.run == .aborted (.outOfBounds 0x87fffffe#32 4 0x80000000#32) && t.pc == 0x80000000#32) = true := by
  decide

/-- LS-30: `sb a2, 3(a1)`. -/
theorem test_step_sb :
    after (placed Config.default 0x80000000#32 0x00c581a3 [(11#5, 0x80001000#32), (12#5, 0x123456ab#32)] []
      [(0x80001000, 4, 0x00000000#32), (0x80001004, 4, 0x00000000#32)])
      (fun t => t.mem.read 0x80001000 4 == 0xab000000#32 && t.pc == 0x80000004#32) = true := by decide

/-- LS-33: `sh a2, 3(a1) (misaligned)`. -/
theorem test_step_sh_misaligned :
    after (placed Config.default 0x80000000#32 0x00c591a3 [(11#5, 0x80001000#32), (12#5, 0x123456ab#32)] []
      [(0x80001000, 4, 0x00000000#32), (0x80001004, 4, 0x00000000#32)])
      (fun t => t.mem.read 0x80001000 4 == 0xab000000#32 && t.mem.read 0x80001004 4 == 0x00000056#32 &&
        t.pc == 0x80000004#32) = true := by decide

/-- LS-35: `sw a2, 2(a1) (misaligned)`. -/
theorem test_step_sw_misaligned :
    after (placed Config.default 0x80000000#32 0x00c5a123 [(11#5, 0x80001000#32), (12#5, 0x11223344#32)] []
      [(0x80001000, 4, 0x00000000#32), (0x80001004, 4, 0x00000000#32)])
      (fun t => t.mem.read 0x80001000 4 == 0x33440000#32 && t.mem.read 0x80001004 4 == 0x00001122#32 &&
        t.pc == 0x80000004#32) = true := by decide

/-- LS-39: `sw a2, 0(a1) (straddles the end)`. -/
theorem test_step_sw_straddles_the_end :
    after (placed Config.default 0x80000000#32 0x00c5a023 [(11#5, 0x87fffffe#32), (12#5, 0x00000001#32)] [] [])
      (fun t => t.run == .aborted (.outOfBounds 0x87fffffe#32 4 0x80000000#32) && t.pc == 0x80000000#32) = true := by
  decide

/-- CT-22: `beq zero, zero, +2 (target with bit 1 set)`. -/
theorem test_step_beq_to_bit_1 :
    after (placed Config.default 0x80000000#32 0x00000163 [] [] [])
      (fun t => t.pc == 0x80000002#32) = true := by decide

/-- CT-19: `beq zero, zero, -4096 (most negative)`. -/
theorem test_step_beq_most_negative :
    after (placed Config.default 0x80000000#32 0x80000063 [] [] [])
      (fun t => t.pc == 0x7ffff000#32) = true := by decide

/-- CT-34: `bne a1, a2, -8`. -/
theorem test_step_bne_back :
    after (placed Config.default 0x80000100#32 0xfec59ce3 [(11#5, 0x00000001#32), (12#5, 0x00000002#32)] [] [])
      (fun t => t.pc == 0x800000f8#32) = true := by decide

/-- CT-08: `blt a1, a2, +16`. -/
theorem test_step_blt_signed :
    after (placed Config.default 0x80000000#32 0x00c5c863 [(11#5, 0x80000000#32), (12#5, 0x7fffffff#32)] [] [])
      (fun t => t.pc == 0x80000010#32) = true := by decide

/-- CT-12: `bge a1, a2, +16`. -/
theorem test_step_bge_signed :
    after (placed Config.default 0x80000000#32 0x00c5d863 [(11#5, 0x7fffffff#32), (12#5, 0x80000000#32)] [] [])
      (fun t => t.pc == 0x80000010#32) = true := by decide

/-- CT-14: `bltu a1, a2, +16`. -/
theorem test_step_bltu_not_taken :
    after (placed Config.default 0x80000000#32 0x00c5e863 [(11#5, 0xffffffff#32), (12#5, 0x00000000#32)] [] [])
      (fun t => t.pc == 0x80000004#32) = true := by decide

/-- CT-17: `bgeu a1, a2, +16`. -/
theorem test_step_bgeu_equal :
    after (placed Config.default 0x80000000#32 0x00c5f863 [(11#5, 0x00000005#32), (12#5, 0x00000005#32)] [] [])
      (fun t => t.pc == 0x80000010#32) = true := by decide

/-- CT-35: `jal zero, -1048576 (most negative)`. -/
theorem test_step_jal_most_negative :
    after (placed Config.default 0x80100000#32 0x8000006f [] [] [])
      (fun t => t.reg 0#5 == 0x00000000#32 && t.pc == 0x80000000#32) = true := by decide

/-- CT-24: `jal ra, +1048574 (most positive)`. -/
theorem test_step_jal_most_positive :
    after (placed Config.default 0x80000000#32 0x7ffff0ef [] [] [])
      (fun t => t.reg 1#5 == 0x80000004#32 && t.pc == 0x800ffffe#32) = true := by decide

/-- CT-30: `jalr ra, 0(ra) (rd = rs1)`. -/
theorem test_step_jalr_source_is_destination :
    after (placed Config.default 0x80000000#32 0x000080e7 [(1#5, 0x80000041#32)] [] [])
      (fun t => t.reg 1#5 == 0x80000004#32 && t.pc == 0x80000040#32) = true := by decide

/-- CT-31: `jalr a0, -1(a1) (negative offset)`. -/
theorem test_step_jalr_negative :
    after (placed Config.default 0x80000000#32 0xfff58567 [(11#5, 0x80000201#32)] [] [])
      (fun t => t.reg 10#5 == 0x80000004#32 && t.pc == 0x80000200#32) = true := by decide

/-- SY-01: `ecall`. -/
theorem test_step_ecall :
    after (placed Config.default 0x80000100#32 0x00000073 [(17#5, 0x0000000b#32)] [(0x305#12, 0x80000800#32)] [])
      (fun t => t.csr 0x341#12 == 0x80000100#32 && t.csr 0x342#12 == 0x0000000b#32 &&
        t.pc == 0x80000800#32) = true := by
  decide

/-- SY-03: `ebreak`. -/
theorem test_step_ebreak :
    after (placed Config.default 0x80000100#32 0x00100073 [(10#5, 0x00000001#32)] [] [])
      (fun t => t.pc == 0x80000104#32 && t.run == .ended 0x80000100#32 0x00000001#32) = true := by decide

/-- SY-06: `mret (target wraps)`. -/
theorem test_step_mret_wraps :
    after (placed Config.default 0x80000000#32 0x30200073 [] [(0x341#12, 0xfffffffc#32)] [])
      (fun t => t.pc == 0x00000000#32) = true := by decide

/-- SY-10: `csrrw a0, mepc, a0 (rd = rs1)`. -/
theorem test_step_csrrw_source_is_destination :
    after (placed Config.default 0x80000000#32 0x34151573 [(10#5, 0x00000055#32)] [(0x341#12, 0x00000066#32)] [])
      (fun t => t.reg 10#5 == 0x00000066#32 && t.csr 0x341#12 == 0x00000055#32 && t.pc == 0x80000004#32) = true := by
  decide

/-- SY-12: `csrrs a0, mstatus, a1`. -/
theorem test_step_csrrs_sets :
    after (placed Config.default 0x80000000#32 0x3005a573 [(11#5, 0x00000008#32)] [(0x300#12, 0x00001800#32)] [])
      (fun t => t.reg 10#5 == 0x00001800#32 && t.csr 0x300#12 == 0x00001808#32 && t.pc == 0x80000004#32) = true := by
  decide

/-- SY-15: `csrrs a0, cycle, zero (0xC00, unrecognised)`. -/
theorem test_step_csrrs_unrecognised :
    after (placed Config.default 0x80000000#32 0xc0002573 [(10#5, 0x00001234#32)] [] [])
      (fun t => t.reg 10#5 == 0x00000000#32 && t.pc == 0x80000004#32) = true := by decide

/-- INV-12: `inv`. -/
theorem test_step_slli_bad_funct7 :
    after (placed Config.default 0x80000000#32 0x40001013 [] [] [])
      (fun t => t.run == .aborted (.invalidInstruction 0x80000000#32 0x40001013#32) &&
        t.pc == 0x80000000#32) = true := by decide

/-- TR-02 to TR-05: the trace events of JAL and JALR. -/
theorem test_step_trace_events :
    after (placed Config.default 0x80000000#32 0x0000006f [] [] []) (fun t => t.events == []) = true ∧
    after (placed Config.default 0x80000000#32 0x000580e7 [(11#5, 0x80000400#32)] [] [])
      (fun t => t.events == [.call 0x80000000#32 0x80000400#32]) = true ∧
    after (placed Config.default 0x80000000#32 0x00008067 [(1#5, 0x80000040#32)] [] [])
      (fun t => t.events == [.ret 0x80000000#32]) = true ∧
    after (placed Config.default 0x80000000#32 0x00028067 [(5#5, 0x80000080#32)] [] [])
      (fun t => t.events == [.call 0x80000000#32 0x80000080#32]) = true := by decide

/-- R103: with SHAMT_SOURCE = register, `slli a0, a1, x12` shifts by the low 5 bits of `x12`. -/
theorem test_step_shift_by_the_named_register :
    after (placed demoConfig 0x80000000#32 0x00c59513 [(11#5, 1#32), (12#5, 33#32)] [] [])
      (fun t => t.reg 10#5 == 2#32) = true := by decide

/-- R62: a store to a device region is an event, and memory stays as it was. -/
theorem test_step_device_store :
    after (placed demoConfig 0x80000000#32 0x00c58023 [(11#5, 0xa000000f#32), (12#5, 0x12345641#32)] [] [])
      (fun t => t.events == [.devWrite 0xa000000f#32 1 0x41#32] && t.mem.length == 4 && t.run == .running) = true := by
  decide

/-- R68: a fetch that straddles the end of `pmem`. -/
theorem test_step_fetch_straddles_the_end :
    after { State.reset with pc := 0x87fffffe#32 }
      (fun t => t.run == .aborted (.outOfBounds 0x87fffffe#32 4 0x87fffffe#32) && t.pc == 0x87fffffe#32) = true := by
  decide

/-- R265: EBREAK ends a host's `step^N` early. -/
theorem test_host_steps_stop :
    (match hostSteps 5 (placed Config.default 0x80000000#32 0x00100073 [] [] []) with
      | .next t => t.run == .ended 0x80000000#32 0#32
      | .fault _ | .refused _ => false) = true := by decide

/-- R283: an empty raw image is loaded wherever RESET_PC is, and one with a byte outside `pmem` is refused. -/
theorem test_host_reset_empty_and_outside :
    hostReset { Config.default with resetPc := 0#32 } (rawImage { Config.default with resetPc := 0#32 } []) =
      .next (State.resetWith { Config.default with resetPc := 0#32 }) ∧
    hostReset Config.default [⟨0x87ffffff, [1#8, 2#8]⟩] = .refused (.imageOutsidePmem 0x87ffffff 2) := ⟨rfl, rfl⟩

/-- Log 21: of two pieces that give the same address, the later one's byte stands. -/
theorem test_host_reset_overlap :
    (match hostReset Config.default [⟨0x80000000, [1#8, 2#8]⟩, ⟨0x80000001, [3#8]⟩] with
      | .next t => t.byteAt 0x80000000 == 1#8 && t.byteAt 0x80000001 == 3#8
      | .fault _ | .refused _ => false) = true := by decide

theorem test_memory_is_canonical : State.reset.mem.wf ∧
    (placed Config.default 0x80000000#32 0x13 [] [] [(0x80001000, 4, 1#32), (0x80000100, 2, 2#32)]).mem.wf := by decide

/-! ## Witnesses: the hypotheses of the obligations can be met -/

/-- A state at the reset address with `addi a0, a1, 1`, `a1` a legal address, and a byte at the ends of `pmem`. -/
def demo : State := placed Config.default 0x80000000#32 0x00158513 [(11#5, 0x80001000#32)] [] [(0x87fffffc, 4, 0x1#32)]

/-- The same with the demo parameters. -/
def demoDevice : State := placed demoConfig 0x80000000#32 0x00158513 [(11#5, 0xa0000000#32)] [] []

theorem witness_DecodeOfEncodeIsIdentity :
    (Instr.bge 1#5 31#5 (-4096)).wf = true ∧ (Instr.bltu 1#5 31#5 4094#13).wf = true ∧
    (Instr.jal 1#5 (-1048576)).wf = true ∧ (Instr.jal 0#5 1048574#21).wf = true ∧ (Instr.inv 0#32).wf = true ∧
    (Instr.lw 10#5 11#5 (-2048)).wf = true ∧ Instr.ecall.wf = true := by decide

theorem witness_FirstFullMatchWins :
    (table = instrRows ++ invRow :: [] ∧ invRow.hits 0#32 = true ∧ ∀ q ∈ instrRows, q.hits 0#32 = false) ∧
    ∃ r ∈ instrRows, r.hits 0x12345537#32 = true := by
  refine ⟨⟨rfl, by decide, by decide⟩, ⟨"lui", _, _, _, .u .lui⟩, .head _, by decide⟩

theorem witness_CompressedFormsAreInvalid :
    (∃ r ∈ instrRows, r.hits 0x12345537#32 = true) ∧ (0x00000001#32).extractLsb' 0 2 ≠ 0b11#2 ∧
    (0x00000002#32).extractLsb' 0 2 ≠ 0b11#2 :=
  ⟨witness_FirstFullMatchWins.2, by decide, by decide⟩

theorem witness_FencesAndAtomicsAreFatal :
    (0x0ff0000f#32).extractLsb' 0 7 = 0b0001111#7 ∧ (0x1000202f#32).extractLsb' 0 7 = 0b0101111#7 := by decide

theorem witness_OtherCsrFormsAreFatal :
    ∀ f3 ∈ [0b011#3, 0b101#3, 0b110#3, 0b111#3], f3 = 0b011#3 ∨ f3 = 0b101#3 ∨ f3 = 0b110#3 ∨ f3 = 0b111#3 := by
  decide

theorem witness_StepRunsTheDecodedInstruction :
    demo.run = .running ∧ InPmem demo demo.pc 4 ∧
    decode [demo.byteAt demo.pc.toNat, demo.byteAt (demo.pc.toNat + 1), demo.byteAt (demo.pc.toNat + 2),
      demo.byteAt (demo.pc.toNat + 3)] = .ok (.addi 10#5 11#5 1#12, []) :=
  ⟨rfl, by decide, rfl⟩

theorem witness_FetchIsBoundsChecked :
    InPmem demo 0x80000000#32 4 ∧ InPmem demo 0x87fffffc#32 4 ∧ InPmem demo 0x80000002#32 4 ∧
    InDevice demoDevice 0xa0000000#32 4 ∧ InDevice demoDevice 0xa000000c#32 4 ∧
    OutOfBounds demoDevice 0xa000000d#32 4 ∧ OutOfBounds demo 0x87fffffd#32 4 ∧ OutOfBounds demo 0x7fffffff#32 4 ∧
    OutOfBounds demo 0#32 4 ∧ OutOfBounds demo 0xffffffff#32 4 := by decide

theorem witness_NoStepOnceTheRunIsOver :
    { demo with run := .ended 0#32 0#32 }.run ≠ .running ∧
    { demo with run := .aborted (.divideCorner 0#32) }.run ≠ .running := by decide

theorem witness_EveryRunningStepCompletes : demo.run = .running ∧ State.reset.run = .running := by decide

theorem demo_inv : demo.Inv :=
  ⟨by decide, by decide, by decide, by decide, rfl⟩

theorem demoDevice_inv : demoDevice.Inv :=
  ⟨by decide, by decide, by decide, by decide, rfl⟩

theorem witness_StepKeepsInvariant :
    demo.Inv ∧ (∃ t, step demo = .next t) ∧ demoDevice.Inv ∧ ∃ t, step demoDevice = .next t :=
  ⟨demo_inv, ⟨_, rfl⟩, demoDevice_inv, ⟨_, rfl⟩⟩

theorem witness_ResetMeetsInvariant : Config.default.wf ∧ demoConfig.wf := by decide

theorem witness_HostOperationsKeepInvariant :
    (demoConfig.wf ∧ ∃ t, hostReset demoConfig [⟨0x87fffffe, [1#8, 2#8]⟩] = .next t) ∧ demo.Inv :=
  ⟨⟨by decide, _, rfl⟩, demo_inv⟩

theorem witness_StepKeepsParameters : ∃ t, step demo = .next t := ⟨_, rfl⟩

theorem witness_FatalStepsChangeNothing :
    ∃ t, step (placed Config.default 0x80000000#32 0 [] [] []) = .next t ∧
      t.run = .aborted (.invalidInstruction 0x80000000#32 0#32) := ⟨_, rfl, rfl⟩

theorem witness_RegisterZeroReadsZero :
    (∃ t, exec (.addi 0#5 11#5 1#12) demo = .next t ∧ ∀ why, t.run ≠ .aborted why) ∧
    ∃ t, exec (.inv 0#32) demo = .next t ∧ demo.reg 0#5 = 0#32 :=
  ⟨⟨_, rfl, fun _ h => nomatch h⟩, _, rfl, rfl⟩

theorem witness_OnlyTheDestinationIsWritten :
    (∃ t, exec (.addi 10#5 11#5 1#12) demo = .next t) ∧ 11#5 ≠ 0#5 ∧
    destination (.addi 10#5 11#5 1#12) ≠ some 11#5 ∧ (∃ t, exec .ecall demo = .next t) ∧
    destination .ecall ≠ some 11#5 := ⟨⟨_, rfl⟩, by decide, by decide, ⟨_, rfl⟩, by decide⟩

theorem witness_CsrsChangeOnlyByCsrInstructionsAndEcall :
    ((∃ t, exec .mret demo = .next t) ∧ canWriteCsr .mret = false) ∧
    (∃ t, exec .ecall demo = .next t) ∧ demo.cfg.trapHandler = .reference ∧ addressesMstatus .ecall = false ∧
    (∃ t, exec (.csrrw 10#5 0x301#12 11#5) demo = .next t) ∧ addressesMstatus (.csrrw 10#5 0x301#12 11#5) = false :=
  ⟨⟨⟨_, rfl⟩, rfl⟩, ⟨_, rfl⟩, rfl, rfl, ⟨_, rfl⟩, rfl⟩

theorem witness_OnlyStoresChangeMemory :
    (∃ t, exec (.lw 10#5 11#5 0#12) demo = .next t) ∧ isStore (.lw 10#5 11#5 0#12) = false := ⟨⟨_, rfl⟩, rfl⟩

theorem witness_OutputsAreNeverRead : ∃ t, exec (.jal 1#5 8#21) demo = .next t := ⟨_, rfl⟩

theorem witness_MstatusAffectsNothingElse :
    demo.cfg.trapHandler = .reference ∧ addressesMstatus (.csrrs 10#5 0x305#12 11#5) = false ∧
    ∃ t, exec (.csrrs 10#5 0x305#12 11#5) demo = .next t := ⟨rfl, rfl, _, rfl⟩

theorem witness_ShiftsByImmediate :
    0b0000001#7 ≠ 0b0000000#7 ∧ 0b0100000#7 ≠ 0b0000000#7 ∧ 0b0100001#7 ≠ 0b0000000#7 ∧
    0b0100001#7 ≠ 0b0100000#7 ∧ demo.cfg.shamtSource = .field ∧ demoDevice.cfg.shamtSource ≠ .field := by decide

/-- Corner, overflow and ordinary operands, with and without faults: 5 by 0, the most negative by -1 and by 1. -/
theorem witness_SignedDivision :
    ¬ (demo.cfg.divCorner = .fault ∧
      ((0#32 : Word) = 0#32 ∨ ((5#32 : Word) = 0x80000000#32 ∧ (0#32 : Word) = 0xFFFFFFFF#32))) ∧
    ¬ (demo.cfg.divCorner = .fault ∧ ((0xFFFFFFFF#32 : Word) = 0#32 ∨
      ((0x80000000#32 : Word) = 0x80000000#32 ∧ (0xFFFFFFFF#32 : Word) = 0xFFFFFFFF#32))) ∧
    (demoDevice.cfg.divCorner = .fault ∧
      ((0#32 : Word) = 0#32 ∨ ((5#32 : Word) = 0x80000000#32 ∧ (0#32 : Word) = 0xFFFFFFFF#32))) ∧
    (demoDevice.cfg.divCorner = .fault ∧ ((0xFFFFFFFF#32 : Word) = 0#32 ∨
      ((0x80000000#32 : Word) = 0x80000000#32 ∧ (0xFFFFFFFF#32 : Word) = 0xFFFFFFFF#32))) ∧
    ¬ (demoDevice.cfg.divCorner = .fault ∧ ((1#32 : Word) = 0#32 ∨
      ((0x80000000#32 : Word) = 0x80000000#32 ∧ (1#32 : Word) = 0xFFFFFFFF#32))) := by decide

theorem witness_UnsignedDivision :
    ¬ (demo.cfg.divCorner = .fault ∧ demo.reg 0#5 = 0#32) ∧
    (demoDevice.cfg.divCorner = .fault ∧ demoDevice.reg 0#5 = 0#32) ∧
    ¬ (demoDevice.cfg.divCorner = .fault ∧ demoDevice.reg 11#5 = 0#32) := by decide

theorem witness_QuotientAndRemainderRebuildTheDividend : demo.cfg.divCorner = .riscv ∧ 10#5 ≠ 0#5 := by decide

theorem witness_ByteLoads :
    InPmem demo 0x80000000#32 1 ∧ InPmem demo 0x87ffffff#32 1 ∧ OutOfBounds demo 0x7fffffff#32 1 ∧
    OutOfBounds demo 0x88000000#32 1 := by decide

theorem witness_HalfwordLoads :
    InPmem demo 0x80000001#32 2 ∧ InPmem demo 0x87fffffe#32 2 ∧ OutOfBounds demo 0x7fffffff#32 2 ∧
    OutOfBounds demo 0x87ffffff#32 2 := by decide

theorem witness_WordLoads :
    InPmem demo (demo.reg 11#5 + (0#12).signExtend 32) 4 ∧ InPmem demo 0x87fffffc#32 4 ∧
    OutOfBounds demo 0x7ffffffd#32 4 ∧ OutOfBounds demo 0x87fffffd#32 4 := by decide

theorem witness_DeviceLoads :
    InDevice demoDevice (demoDevice.reg 11#5 + (0#12).signExtend 32) 1 ∧ InDevice demoDevice 0xa000000f#32 1 ∧
    InDevice demoDevice 0xa0000000#32 2 ∧ InDevice demoDevice 0xa000000e#32 2 ∧
    InDevice demoDevice 0xa0000000#32 4 ∧ InDevice demoDevice 0xa000000c#32 4 := by decide

theorem witness_Stores :
    InPmem demo 0x87ffffff#32 1 ∧ OutOfBounds demo 0x88000000#32 1 ∧ InPmem demo 0x87fffffe#32 2 ∧
    OutOfBounds demo 0x87ffffff#32 2 ∧ InPmem demo 0x80000000#32 4 ∧ OutOfBounds demo 0x7fffffff#32 4 := by decide

theorem witness_DeviceStores :
    InDevice demoDevice 0xa000000f#32 1 ∧ InDevice demoDevice 0xa000000e#32 2 ∧
    InDevice demoDevice 0xa000000c#32 4 := by decide

theorem witness_StoreThenLoadRoundTrip :
    10#5 ≠ 0#5 ∧ demo.reg 0#5 = 0#32 ∧
    demo.reg 11#5 + (1#12).signExtend 32 = demo.reg 11#5 + (1#12).signExtend 32 ∧
    InPmem demo (demo.reg 11#5 + (1#12).signExtend 32) 4 ∧ InPmem demo (demo.reg 11#5 + (1#12).signExtend 32) 2 ∧
    InPmem demo (demo.reg 11#5 + (1#12).signExtend 32) 1 := by decide

/-- A state where `x11` is the address after the instruction. -/
def overNext : State := placed Config.default 0x80000000#32 0x00c5a023 [(11#5, 0x80000004#32)] [] []

theorem witness_StoreIsSeenByTheNextFetch :
    overNext.run = .running ∧ overNext.reg 11#5 + (0#12).signExtend 32 = overNext.pc + 4#32 ∧
    InPmem overNext (overNext.pc + 4#32) 4 := by decide

/-- Operands that make each comparison hold and fail: equal values, and the most negative beside 0. -/
theorem witness_Branches :
    ((5#32 : Word) = 5#32 ∧ ¬ (5#32 : Word) = 6#32) ∧
    ((0x80000000#32 : Word).toInt < (0#32 : Word).toInt ∧ ¬ (5#32 : Word).toInt < (5#32 : Word).toInt) ∧
    ((0#32 : Word).toNat < (0x80000000#32 : Word).toNat ∧ ¬ (5#32 : Word).toNat < (5#32 : Word).toNat) := by decide

theorem witness_JumpsLinkAndTrace : 0b001#3 ≠ 0b000#3 ∧ 0b111#3 ≠ 0b000#3 := by decide

theorem witness_UnmatchedWordsAbort : ∀ r ∈ instrRows, r.hits 0x00000000#32 = false := by decide

theorem witness_TrapAndReturnResumeAfterTheEcall : demo.cfg.trapHandler = .reference := rfl

theorem witness_CsrWritesTakeEffectAtOnce : 10#5 ≠ 0#5 ∧ demo.cfg.trapHandler = .reference := by decide

/-- Images that fit to the last byte of `pmem`, that overlap, and that have a piece with no bytes based outside `pmem`;
and a second piece whose first, or whose last, byte lies outside. -/
theorem witness_ResetLoadsTheImage :
    (∀ g ∈ [Segment.mk 0x80000000 [1#8, 2#8], ⟨0x80000001, [3#8]⟩, ⟨0x87fffffe, [4#8, 5#8]⟩, ⟨0, []⟩],
      ∀ k, k < g.bytes.length → Config.default.mbase ≤ g.base + k ∧
        g.base + k < Config.default.mbase + Config.default.msize) ∧
    (∀ g ∈ [Segment.mk 0x80000000 [1#8]], ∀ k, k < g.bytes.length → Config.default.mbase ≤ g.base + k ∧
      g.base + k < Config.default.mbase + Config.default.msize) ∧
    (∀ g ∈ [Segment.mk 0x7fffffff [1#8, 2#8], ⟨0x87fffffe, [1#8, 2#8, 3#8]⟩],
      ¬ ∀ k, k < g.bytes.length → Config.default.mbase ≤ g.base + k ∧
        g.base + k < Config.default.mbase + Config.default.msize) := by decide

theorem witness_HostReadsAreBoundsChecked :
    InPmem demo 0x87fffffc#32 4 ∧ InDevice demoDevice 0xa000000c#32 4 ∧ OutOfBounds demo 0x87fffffd#32 4 := by decide

theorem witness_HostStepsCompose : demo.run = .running := rfl

theorem witness_LoadImmediateExpansion : 10#5 ≠ 0#5 ∧ demo.reg 0#5 = 0#32 := by decide

end Sys2Proof.Tests
end

section
/-! Every instruction completes under the parameters it started with: one lemma per shared end of an instruction, then
`exec`, then `step`, and the two statements of `00_scope.md` that follow (R8, R12). -/

namespace Sys2Proof.Machine

/-- An outcome that is a next state whose parameters are `c`: neither a fault nor a refusal. -/
def CompletesUnder (c : Config) (out : Out) : Prop := ∃ t, out = .next t ∧ t.cfg = c

/-! ## The ends of an instruction -/

theorem finish_completes (s : State) (d : Word) : CompletesUnder s.cfg (s.finish d) := ⟨_, rfl, rfl⟩

theorem result_completes (s : State) (rd : RegIdx) (v : Word) : CompletesUnder s.cfg (s.result rd v) := ⟨_, rfl, rfl⟩

theorem fatal_completes (s : State) (why : Abort) : CompletesUnder s.cfg (s.fatal why) := ⟨_, rfl, rfl⟩

theorem jump_completes (s : State) (rd : RegIdx) (target : Word) (trace : List Event) :
    CompletesUnder s.cfg (s.jump rd target trace) := ⟨_, rfl, rfl⟩

theorem branch_completes (s : State) (taken : Bool) (off : BitVec 13) :
    CompletesUnder s.cfg (s.branch taken off) := finish_completes s _

theorem load_completes (s : State) (rd rs1 : RegIdx) (imm : BitVec 12) (n : Nat) (ext : Word → Word) :
    CompletesUnder s.cfg (s.load rd rs1 imm n ext) := by
  rcases access_cases s (s.ea rs1 imm) n with hp | hd | ho
  · rw [load_pmem hp]
    exact result_completes s _ _
  · rw [load_device hd]
    exact result_completes { s with draws := s.draws + 1 } _ _
  · rw [load_outOfBounds ho]
    exact fatal_completes s _

theorem store_completes (s : State) (rs2 rs1 : RegIdx) (imm : BitVec 12) (n : Nat) :
    CompletesUnder s.cfg (s.store rs2 rs1 imm n) := by
  rcases access_cases s (s.ea rs1 imm) n with hp | hd | ho
  · rw [store_pmem hp]
    exact finish_completes { s with mem := s.mem.write (s.ea rs1 imm).toNat n (s.reg rs2) } _
  · rw [store_device hd]
    exact finish_completes (s.emit _) _
  · rw [store_outOfBounds ho]
    exact fatal_completes s _

theorem divide_completes (s : State) (rd : RegIdx) (corner : Bool) (v : Word) :
    CompletesUnder s.cfg (s.divide rd corner v) := by
  rcases divide_cases s rd corner v with ⟨-, -, h⟩ | ⟨-, h⟩
  · rw [h]
    exact fatal_completes s _
  · rw [h]
    exact result_completes s rd v

theorem ecall_completes (s : State) : CompletesUnder s.cfg (execEcall s) := by
  obtain ⟨c, d, h⟩ := takeTrap_keeps s (s.reg s.cfg.syscallNoReg) s.pc
  rw [execEcall, h]
  exact finish_completes { s with csrs := c } d

/-! ## One instruction, one step -/

/-- No instruction faults or is refused, and none changes a parameter: each ends in one of the ways above. -/
theorem exec_completes (i : Instr) (s : State) : CompletesUnder s.cfg (exec i s) :=
  match i with
  | .lui .. | .auipc .. => result_completes s _ _
  | .addi .. | .slti .. | .sltiu .. | .xori .. | .ori .. | .andi .. => result_completes s _ _
  | .slli .. | .srli .. | .srai .. => result_completes s _ _
  | .add .. | .sub .. | .sll .. | .slt .. | .sltu .. => result_completes s _ _
  | .xor .. | .srl .. | .sra .. | .or .. | .and .. => result_completes s _ _
  | .mul .. | .mulh .. | .mulhsu .. | .mulhu .. => result_completes s _ _
  | .div .. | .divu .. | .rem .. | .remu .. => divide_completes s _ _ _
  | .jal .. | .jalr .. => jump_completes s _ _ _
  | .beq .. | .bne .. | .blt .. | .bge .. | .bltu .. | .bgeu .. => branch_completes s _ _
  | .lb .. | .lh .. | .lw .. | .lbu .. | .lhu .. => load_completes s _ _ _ _ _
  | .sb .. | .sh .. | .sw .. => store_completes s _ _ _ _
  | .ecall => ecall_completes s
  | .ebreak => finish_completes { s with run := .ended s.pc (s.reg s.cfg.haltRetReg) } _
  | .mret => finish_completes s _
  | .csrrw _ csr rs1 => result_completes (s.setCsr csr (s.reg rs1)) _ _
  | .csrrs _ csr rs1 => result_completes (s.setCsr csr (s.csr csr ||| s.reg rs1)) _ _
  | .inv _ => fatal_completes s _

theorem step_completes {s : State} (hr : s.run = .running) : CompletesUnder s.cfg (step s) := by
  rcases step_cases s with ⟨hstop, -⟩ | ⟨-, -, h⟩ | ⟨-, -, h⟩ | ⟨-, -, h⟩
  · exact absurd hr hstop
  · rw [h]
    exact fatal_completes s _
  · rw [h]
    exact exec_completes _ s
  · rw [h]
    exact exec_completes _ { s with draws := s.draws + 1 }

/-- Only a Running engine steps (R265). -/
theorem running_of_step_next {s t : State} (h : step s = .next t) : s.run = .running := by
  rcases step_cases s with ⟨-, why, hf⟩ | ⟨hr, -⟩ | ⟨hr, -⟩ | ⟨hr, -⟩
  · rw [hf] at h
    cases h
  all_goals exact hr

/-! ## The statements -/

/-- Settles O11: a fatal fetch is a next state, and every instruction completes. -/
theorem everyRunningStepCompletes : Obligations.EveryRunningStepCompletes := by
  intro s hr
  obtain ⟨t, ht, -⟩ := step_completes hr
  exact ⟨t, ht⟩

/-- Settles O15: a step that answers a state was taken from Running, where it completes under the same parameters. -/
theorem stepKeepsParameters : Obligations.StepKeepsParameters := by
  intro s t h
  obtain ⟨t', ht', hcfg⟩ := step_completes (running_of_step_next h)
  obtain rfl := Host.Outcome.next.inj (h.symm.trans ht')
  exact hcfg

end Sys2Proof.Machine
end

section
/-! What an instruction can do, said once: the effects it may have before its end, and the ways it ends. The invariant of
the machine, register 0, the destination register and the CSRs follow from that (`10_state.md` R31, R32, R39, R49). -/

namespace Sys2Proof.Machine

/-! ## What an instruction may change before its end -/

/-- Everything an instruction may do to a state besides writing its destination and ending the step, with what it must be
to do it: a device read (R62), events (R62, R222), a store in `pmem` (R196 to R198), a CSR write (R234, R235), a trap
(R254, R255). -/
inductive Effect (i : Instr) (s : State) : State → Prop where
  | nothing : Effect i s s
  | deviceRead : Effect i s { s with draws := s.draws + 1 }
  | events (new : List Event) : Effect i s { s with events := s.events ++ new }
  | store {a : Word} {n : Nat} (v : Word) (hstore : isStore i = true) (hin : InPmem s a n) :
      Effect i s { s with mem := s.mem.write a.toNat n v }
  | csrWrite {a : CsrAddr} (v : Word) (hcsr : canWriteCsr i = true) (haddr : addressesMstatus i = (a == 0x300#12)) :
      Effect i s (s.setCsr a v)
  | trap {c : Csrs} (hcsr : canWriteCsr i = true)
      (hreference : s.cfg.trapHandler = .reference → c.mstatus = s.csrs.mstatus) : Effect i s { s with csrs := c }

namespace Effect

variable {i : Instr} {s u : State}

theorem regs_eq (h : Effect i s u) : u.regs = s.regs := by cases h <;> rfl

theorem run_eq (h : Effect i s u) : u.run = s.run := by cases h <;> rfl

/-- A store goes to `pmem`; every other effect leaves the memory alone. -/
theorem keeps_inv (h : Effect i s u) (hs : s.Inv) : u.Inv := by
  obtain ⟨hcfg, hzero, hwf, hin, hpc⟩ := hs
  cases h with
  | store v _ hp => exact ⟨hcfg, hzero, Memory.wf_write hwf _ _ _, Memory.within_write hin _ _ _ hp.1 hp.2, hpc⟩
  | nothing | deviceRead | events | csrWrite | trap => exact ⟨hcfg, hzero, hwf, hin, hpc⟩

theorem csrs_eq (h : Effect i s u) (hi : canWriteCsr i = false) : u.csrs = s.csrs := by
  cases h with
  | csrWrite _ hcsr | trap hcsr => exact absurd (hcsr.symm.trans hi) (by decide)
  | nothing | deviceRead | events | store => rfl

theorem mstatus_eq (h : Effect i s u) (href : s.cfg.trapHandler = .reference) (hi : addressesMstatus i = false) :
    u.csrs.mstatus = s.csrs.mstatus := by
  cases h with
  | @csrWrite a v _ haddr =>
    have ha : a ≠ 0x300#12 := beq_eq_false_iff_ne.mp (haddr.symm.trans hi)
    rw [State.setCsr_csrs, Csrs.write_eq]
    exact if_neg ha
  | trap _ hreference => exact hreference href
  | nothing | deviceRead | events | store => rfl

end Effect

/-! ## How an instruction ends -/

/-- The ways an instruction ends: a fatal error at `pc` (R253), EBREAK's end of the run (R231), or a completed step that
writes no general register or the destination (R118). -/
inductive Ends (i : Instr) (s : State) : State → Prop where
  | aborts {why : Abort} (hat : (Run.aborted why).fitsPc s.pc = true) : Ends i s { s with run := .aborted why }
  | halts (ret : Word) : Ends i s (State.endStep { s with run := .ended s.pc ret } (s.pc + 4#32))
  | goesOn {u : State} (heffect : Effect i s u) (d : Word) : Ends i s (u.endStep d)
  | writes {u : State} {rd : RegIdx} (heffect : Effect i s u) (hdest : destination i = some rd) (v d : Word) :
      Ends i s ((u.setReg rd v).endStep d)

/-- An outcome that is a next state, reached in one of these ways. -/
def EndsBy (i : Instr) (s : State) (out : Out) : Prop := ∃ t, out = .next t ∧ Ends i s t

section
variable {i : Instr} {s u : State} {rd : RegIdx}

theorem fatal_ends {why : Abort} (hat : (Run.aborted why).fitsPc s.pc = true) : EndsBy i s (s.fatal why) :=
  ⟨_, rfl, .aborts hat⟩

theorem finish_ends (heffect : Effect i s u) (d : Word) : EndsBy i s (u.finish d) := ⟨_, rfl, .goesOn heffect d⟩

theorem result_ends (heffect : Effect i s u) (hdest : destination i = some rd) (v : Word) :
    EndsBy i s (u.result rd v) := ⟨_, rfl, .writes heffect hdest v _⟩

theorem jump_ends (hdest : destination i = some rd) (target : Word) (trace : List Event) :
    EndsBy i s (s.jump rd target trace) := ⟨_, rfl, .writes (.events trace) hdest _ target⟩

theorem branch_ends (taken : Bool) (off : BitVec 13) : EndsBy i s (s.branch taken off) := finish_ends .nothing _

theorem load_ends (hdest : destination i = some rd) (rs1 : RegIdx) (imm : BitVec 12) (n : Nat) (ext : Word → Word) :
    EndsBy i s (s.load rd rs1 imm n ext) := by
  rcases access_cases s (s.ea rs1 imm) n with hp | hd | ho
  · rw [load_pmem hp]
    exact result_ends .nothing hdest _
  · rw [load_device hd]
    exact result_ends .deviceRead hdest _
  · rw [load_outOfBounds ho]
    exact fatal_ends (beq_self_eq_true s.pc)

theorem store_ends (hstore : isStore i = true) (rs2 rs1 : RegIdx) (imm : BitVec 12) (n : Nat) :
    EndsBy i s (s.store rs2 rs1 imm n) := by
  rcases access_cases s (s.ea rs1 imm) n with hp | hd | ho
  · rw [store_pmem hp]
    exact finish_ends (.store _ hstore hp) _
  · rw [store_device hd]
    exact finish_ends (.events _) _
  · rw [store_outOfBounds ho]
    exact fatal_ends (beq_self_eq_true s.pc)

theorem divide_ends (hdest : destination i = some rd) (corner : Bool) (v : Word) :
    EndsBy i s (s.divide rd corner v) := by
  rcases divide_cases s rd corner v with ⟨-, -, h⟩ | ⟨-, h⟩
  · rw [h]
    exact fatal_ends (beq_self_eq_true s.pc)
  · rw [h]
    exact result_ends .nothing hdest v

/-- The reference handler writes `mepc` and `mcause`; an external one may write any CSR, but nothing else. -/
theorem ecall_ends : EndsBy .ecall s (execEcall s) := by
  obtain ⟨c, d, h⟩ := takeTrap_keeps s (s.reg s.cfg.syscallNoReg) s.pc
  have hreference : s.cfg.trapHandler = .reference → c.mstatus = s.csrs.mstatus := by
    intro href
    rw [takeTrap_reference href] at h
    exact congrArg (fun answer => answer.1.csrs.mstatus) h.symm
  rw [execEcall, h]
  exact finish_ends (.trap rfl hreference) d

end

/-- Every instruction ends in one of the ways above. -/
theorem exec_ends (i : Instr) (s : State) : EndsBy i s (exec i s) :=
  match i with
  | .lui .. | .auipc .. => result_ends .nothing rfl _
  | .addi .. | .slti .. | .sltiu .. | .xori .. | .ori .. | .andi .. => result_ends .nothing rfl _
  | .slli .. | .srli .. | .srai .. => result_ends .nothing rfl _
  | .add .. | .sub .. | .sll .. | .slt .. | .sltu .. => result_ends .nothing rfl _
  | .xor .. | .srl .. | .sra .. | .or .. | .and .. => result_ends .nothing rfl _
  | .mul .. | .mulh .. | .mulhsu .. | .mulhu .. => result_ends .nothing rfl _
  | .div .. | .divu .. | .rem .. | .remu .. => divide_ends rfl _ _
  | .jal .. | .jalr .. => jump_ends rfl _ _
  | .beq .. | .bne .. | .blt .. | .bge .. | .bltu .. | .bgeu .. => branch_ends _ _
  | .lb .. | .lh .. | .lw .. | .lbu .. | .lhu .. => load_ends rfl _ _ _ _
  | .sb .. | .sh .. | .sw .. => store_ends rfl _ _ _ _
  | .ecall => ecall_ends
  | .ebreak => ⟨_, rfl, .halts _⟩
  | .mret => finish_ends .nothing _
  | .csrrw .. | .csrrs .. => result_ends (.csrWrite _ rfl rfl) rfl _
  | .inv _ => fatal_ends (beq_self_eq_true s.pc)

theorem ends_of_exec {i : Instr} {s t : State} (h : exec i s = .next t) : Ends i s t := by
  obtain ⟨t', ht', hends⟩ := exec_ends i s
  obtain rfl := Host.Outcome.next.inj (h.symm.trans ht')
  exact hends

/-! ## Registers at the end of a step (R118) -/

theorem State.reg_zero_endStep (s : State) (d : Word) : (s.endStep d).reg 0#5 = 0#32 :=
  (State.reg_endStep s d 0#5).trans (if_pos rfl)

theorem State.reg_endStep_of_ne (s : State) (d : Word) {r : RegIdx} (hr : r ≠ 0#5) :
    (s.endStep d).reg r = s.reg r := (State.reg_endStep s d r).trans (if_neg hr)

/-! ## The invariant (R31, R61, R231, R253) -/

/-- A fatal error at `pc` keeps the invariant. -/
theorem State.Inv.abort {s : State} (hs : s.Inv) {why : Abort} (hat : (Run.aborted why).fitsPc s.pc = true) :
    State.Inv { s with run := .aborted why } :=
  ⟨hs.cfgWf, hs.zeroReg, hs.memWf, hs.memWithin, hat⟩

/-- The end of a step restores register 0, so only the parameters and the memory need to be those of a state that meets
the invariant. -/
theorem State.Inv.endStep {s u : State} {d : Word} (hs : s.Inv) (hcfg : u.cfg = s.cfg) (hmem : u.mem = s.mem)
    (hrun : u.run.fitsPc d = true) : (u.endStep d).Inv where
  cfgWf := hcfg.symm ▸ hs.cfgWf
  zeroReg := State.reg_zero_endStep u d
  memWf := hmem.symm ▸ hs.memWf
  memWithin := by
    rw [State.endStep_mem, State.endStep_cfg, hmem, hcfg]
    exact hs.memWithin
  runPc := hrun

/-- While the engine runs, `pc` may be anywhere. -/
theorem fitsPc_of_running {r : Run} (hr : r = .running) (pc : Word) : r.fitsPc pc = true := by
  rw [hr]
  rfl

theorem Ends.keeps_inv {i : Instr} {s t : State} (h : Ends i s t) (hs : s.Inv) (hr : s.run = .running) : t.Inv := by
  cases h with
  | aborts hat => exact hs.abort hat
  | halts ret => exact hs.endStep rfl rfl (beq_self_eq_true (s.pc + 4#32))
  | goesOn heffect d =>
    exact (heffect.keeps_inv hs).endStep rfl rfl (fitsPc_of_running (heffect.run_eq.trans hr) d)
  | writes heffect _ v d =>
    exact (heffect.keeps_inv hs).endStep rfl rfl (fitsPc_of_running (heffect.run_eq.trans hr) d)

theorem exec_keeps_inv {i : Instr} {s t : State} (hs : s.Inv) (hr : s.run = .running) (h : exec i s = .next t) :
    t.Inv := (ends_of_exec h).keeps_inv hs hr

/-- Settles O12: a fatal fetch records the `pc` it leaves; any other step runs an instruction, in `s` or in `s` after
the device read of its fetch. -/
theorem stepKeepsInvariant : Obligations.StepKeepsInvariant := by
  intro s t hs h
  rcases step_cases s with ⟨-, why, hf⟩ | ⟨-, -, hf⟩ | ⟨hr, -, he⟩ | ⟨hr, -, he⟩
  · rw [hf] at h
    cases h
  · obtain rfl := Host.Outcome.next.inj (hf.symm.trans h)
    exact hs.abort (beq_self_eq_true s.pc)
  · exact exec_keeps_inv hs hr (he.symm.trans h)
  · have hfetched : State.Inv { s with draws := s.draws + 1 } :=
      ⟨hs.cfgWf, hs.zeroReg, hs.memWf, hs.memWithin, hs.runPc⟩
    exact exec_keeps_inv hfetched hr (he.symm.trans h)

/-! ## The general registers (R31, R32) -/

/-- Settles O17: an instruction aborts and changes no register, or the end of its step clears register 0. -/
theorem registerZeroReadsZero : Obligations.RegisterZeroReadsZero := by
  intro i s t h
  cases ends_of_exec h with
  | @aborts why => exact ⟨fun hsafe => absurd rfl (hsafe why), id⟩
  | halts | goesOn | writes => exact ⟨fun _ => State.reg_zero_endStep _ _, fun _ => State.reg_zero_endStep _ _⟩

/-- Settles O18: besides register 0, the end of a step writes nothing, an effect writes nothing, and a result goes to
the destination. -/
theorem onlyTheDestinationIsWritten : Obligations.OnlyTheDestinationIsWritten := by
  intro i s t r h hr hdest
  cases ends_of_exec h with
  | aborts => rfl
  | halts => exact State.reg_endStep_of_ne _ _ hr
  | goesOn heffect =>
    rw [State.reg_endStep_of_ne _ _ hr]
    exact State.reg_congr heffect.regs_eq r
  | @writes u rd heffect hrd =>
    have hne : r ≠ rd := fun e => hdest (e ▸ hrd)
    rw [State.reg_endStep_of_ne _ _ hr, State.reg_setReg, if_neg hne]
    exact State.reg_congr heffect.regs_eq r

/-! ## The CSRs (R39, R254) -/

/-- Settles O19: the ends of an instruction leave the CSRs alone, so only an effect changes them. -/
theorem csrsChangeOnlyByCsrInstructionsAndEcall : Obligations.CsrsChangeOnlyByCsrInstructionsAndEcall := by
  intro i s t h
  cases ends_of_exec h with
  | aborts | halts => exact ⟨fun _ => rfl, fun _ _ => rfl⟩
  | goesOn heffect | writes heffect => exact ⟨heffect.csrs_eq, heffect.mstatus_eq⟩

/-! ## Reset (R49) -/

theorem reg_resetWith (c : Config) (r : RegIdx) :
    (State.resetWith c).reg r = if r = 0#5 ∨ c.gprReset = .zero then 0#32 else Config.gprDraw r.toNat := by
  cases hc : c.gprReset with
  | zero => simp [State.reg, State.resetWith, resetRegs, hc]
  | draw =>
    have hzero : r.toFin = 0 ↔ r = 0#5 := BitVec.toFin_inj (y := 0#5)
    simp [State.reg, State.resetWith, resetRegs, hc, hzero]

theorem resetWith_inv {c : Config} (hc : c.wf) : (State.resetWith c).Inv where
  cfgWf := hc
  zeroReg := (reg_resetWith c 0#5).trans (if_pos (.inl rfl))
  memWf := List.Pairwise.nil
  memWithin := fun _ h => absurd h List.not_mem_nil
  runPc := rfl

/-- Settles O13: no memory is listed, register 0 is clear, and the engine runs. -/
theorem resetMeetsInvariant : Obligations.ResetMeetsInvariant :=
  ⟨resetWith_inv (by decide), fun _ hc => resetWith_inv hc⟩

/-- Settles O53: the registers as `reg_resetWith` says, every other field as `State.resetWith` sets it. -/
theorem resetValues : Obligations.ResetValues := fun c =>
  ⟨reg_resetWith c, rfl, rfl, fun _ => rfl, rfl⟩

end Sys2Proof.Machine
end

section
/-! The opcode field decides whether a word can match a row: every row fixes it, so a major opcode that no row fixes is
invalid (`20_memory.md` R73, R74; `30_encoding.md` R95). -/

namespace Sys2Proof

theorem opcodeOf_mask {r : Row} (hr : r ∈ instrRows) : opcodeOf r.mask = BitVec.allOnes 7 := by
  have hall : ∀ q ∈ instrRows, opcodeOf q.mask = BitVec.allOnes 7 := by decide
  exact hall r hr

theorem opcodeOf_and (v w : Word) : opcodeOf (v &&& w) = opcodeOf v &&& opcodeOf w :=
  BitVec.extractLsb'_and

/-- A word has the opcode of the row it matches. -/
theorem opcodeOf_of_hits {r : Row} (hr : r ∈ instrRows) {w : Word} (h : r.hits w = true) :
    opcodeOf w = opcodeOf r.fixed := by
  have hfixed : w &&& r.mask = r.fixed := beq_iff_eq.mp h
  rw [← hfixed, opcodeOf_and, opcodeOf_mask hr, BitVec.and_allOnes]

theorem unmatched_of_opcode {w : Word} (h : ∀ r ∈ instrRows, opcodeOf w ≠ opcodeOf r.fixed) : unmatched w = true := by
  refine List.all_eq_true.mpr fun r hr => ?_
  rw [Bool.not_eq_true']
  exact Bool.eq_false_of_not_eq_true fun hhit => h r hr (opcodeOf_of_hits hr hhit)

/-- No row has the major opcode of FENCE (R73) or of the atomics (R74). -/
theorem fence_and_amo_have_no_row :
    ∀ r ∈ instrRows, 0b0001111#7 ≠ opcodeOf r.fixed ∧ 0b0101111#7 ≠ opcodeOf r.fixed := by decide

namespace Machine

/-- Settles O6: no row has the opcode, so the word decodes to `inv`, which aborts. -/
theorem fencesAndAtomicsAreFatal : Obligations.FencesAndAtomicsAreFatal := by
  intro w s hop
  have hun : unmatched w = true := unmatched_of_opcode fun r hr heq => by
    obtain ⟨hfence, hamo⟩ := fence_and_amo_have_no_row r hr
    rcases hop with hop | hop
    · exact hfence (hop.symm.trans heq)
    · exact hamo (hop.symm.trans heq)
  have hinv : decodeWord w = .inv w := decodeWord_of_unmatched hun
  refine ⟨hinv, ?_⟩
  rw [hinv]
  exact fatal_spec s (.invalidInstruction s.pc w)

end Machine
end Sys2Proof
end

section
/-! The low bytes of a word: as a field of it, as what a write followed by a read gives, and as what the loads extend
(`20_memory.md` R64, R65, R81; `42_load_store.md` R191 to R195). -/

namespace Sys2Proof.Machine

theorem getLsbD_zextBytes (n : Nat) (v : Word) {i : Nat} (hi : i < 32) :
    (zextBytes n v).getLsbD i = (decide (i < 8 * n) && v.getLsbD i) := by
  rw [zextBytes, BitVec.getLsbD_and, BitVec.getLsbD_ofNat, Nat.testBit_two_pow_sub_one, decide_eq_true hi,
    Bool.true_and, Bool.and_comm]

/-- The low `n` bytes as a field of the word. -/
theorem zextBytes_eq_setWidth (n : Nat) (v : Word) : zextBytes n v = (v.extractLsb' 0 (8 * n)).setWidth 32 := by
  apply BitVec.eq_of_getLsbD_eq
  intro i hi
  rw [getLsbD_zextBytes n v hi, BitVec.getLsbD_setWidth, BitVec.getLsbD_extractLsb', decide_eq_true hi,
    Bool.true_and, Nat.zero_add]

theorem zextBytes_four (v : Word) : zextBytes 4 v = v := by
  rw [zextBytes_eq_setWidth]
  simp

/-- Cutting a word to its low bytes keeps those bytes. -/
theorem extractLsb'_zextBytes {n : Nat} (hn : 8 * n ≤ 32) (v : Word) :
    (zextBytes n v).extractLsb' 0 (8 * n) = v.extractLsb' 0 (8 * n) := by
  apply BitVec.eq_of_getLsbD_eq
  intro i hi
  rw [BitVec.getLsbD_extractLsb', BitVec.getLsbD_extractLsb', Nat.zero_add, getLsbD_zextBytes n v (by omega),
    decide_eq_true hi, Bool.true_and]

theorem sext8_zextBytes (v : Word) : sext8 (zextBytes 1 v) = (v.extractLsb' 0 8).signExtend 32 :=
  congrArg (BitVec.signExtend 32) (extractLsb'_zextBytes (n := 1) (by decide) v)

theorem sext16_zextBytes (v : Word) : sext16 (zextBytes 2 v) = (v.extractLsb' 0 16).signExtend 32 :=
  congrArg (BitVec.signExtend 32) (extractLsb'_zextBytes (n := 2) (by decide) v)

/-- Bit `i` of a little-endian word is bit `i % 8` of byte `i / 8`. -/
theorem getLsbD_leWord (bs : List Byte) {i : Nat} (hi : i < 32) :
    (leWord bs).getLsbD i = (bs.getD (i / 8) 0#8).getLsbD (i % 8) := by
  induction bs generalizing i with
  | nil => simp [leWord]
  | cons b bs ih =>
    rw [leWord, BitVec.getLsbD_or, BitVec.getLsbD_shiftLeft, BitVec.getLsbD_setWidth]
    by_cases hlow : i < 8
    · simp [hi, hlow, Nat.div_eq_of_lt hlow, Nat.mod_eq_of_lt hlow]
    · have hdiv : i / 8 = (i - 8) / 8 + 1 := by omega
      have hmod : i % 8 = (i - 8) % 8 := by omega
      have hb : b.getLsbD i = false := BitVec.getLsbD_of_ge b i (by omega)
      rw [hdiv, hmod, List.getD_cons_succ, ← ih (by omega), hb]
      simp [hi, hlow]

theorem leWord_leBytes (n : Nat) (v : Word) : leWord (leBytes n v) = zextBytes n v := by
  apply BitVec.eq_of_getLsbD_eq
  intro i hi
  rw [getLsbD_leWord _ hi, getLsbD_zextBytes n v hi]
  by_cases hn : i / 8 < n
  · have hlt : i < 8 * n := by omega
    have hbit : 8 * (i / 8) + i % 8 = i := by omega
    rw [getD_leBytes hn, BitVec.getLsbD_extractLsb', hbit]
    simp [hlt, Nat.mod_lt]
  · have hge : ¬ i < 8 * n := by omega
    have hlen : (leBytes n v).length ≤ i / 8 := by rw [length_leBytes]; omega
    rw [List.getD_eq_default _ _ hlen]
    simp [hge]

/-- A read right after a write of the same width at the same address (R81). -/
theorem Memory.read_write_same (m : Memory) (a n : Nat) (v : Word) : (m.write a n v).read a n = zextBytes n v := by
  have hbytes : (List.range n).map (fun k => (m.write a n v).byteAt (a + k)) = leBytes n v := by
    refine List.map_congr_left fun k hk => ?_
    have hlt : k < n := List.mem_range.mp hk
    have hin : a ≤ a + k ∧ a + k < a + n := by omega
    rw [Memory.byteAt_write, if_pos hin, Nat.add_sub_cancel_left]
  rw [Memory.read, hbytes, leWord_leBytes]

end Sys2Proof.Machine
end

section
/-! The fetch, the loads and stores in device regions, and what a store in `pmem` does to the load and to the fetch right
after it (`20_memory.md` R62, R63, R68, R75, R81; `42_load_store.md` R199). -/

namespace Sys2Proof.Machine

/-! ## A step from Running (R113, R114) -/

theorem step_of_fetch {s s1 : State} {i : Instr} (hr : s.run = .running) (hf : s.fetch = .inr (i, s1)) :
    step s = exec i s1 := by
  simp [step, hr, Run.stop, hf]

theorem step_of_fetch_fails {s : State} {out : Out} (hr : s.run = .running) (hf : s.fetch = .inl out) :
    step s = out := by
  simp [step, hr, Run.stop, hf]

theorem step_pmem {s : State} (hr : s.run = .running) (h : InPmem s s.pc 4) :
    step s = exec (decodeWord (s.mem.read s.pc.toNat 4)) s := step_of_fetch hr (fetch_pmem h)

/-- Settles O9: one case of the bounds check each. -/
theorem fetchIsBoundsChecked : Obligations.FetchIsBoundsChecked := by
  intro s hr
  refine ⟨fun hp => ?_, fun hd => ?_, fun ho => ?_⟩
  · rw [step_pmem hr hp, Memory.read_four]
    rfl
  · rw [step_of_fetch hr (fetch_device hd), zextBytes_four]
  · rw [step_of_fetch_fails hr (fetch_outOfBounds ho)]
    exact fatal_spec s _

/-! ## Loads and stores in a device region (R62, R199) -/

section
variable {s : State} {rs1 rs2 : RegIdx} {imm : BitVec 12} {n : Nat} {v : Word}

/-- A load in a device region counts its draw and writes the value `ext` makes of it. -/
theorem load_device_spec {ext : Word → Word} (rd : RegIdx) (h : InDevice s (s.ea rs1 imm) n)
    (hv : ext (zextBytes n (Config.devDraw s.draws)) = v) :
    ∃ t, s.load rd rs1 imm n ext = .next t ∧ OnlyWrites { s with draws := s.draws + 1 } t rd v (s.pc + 4#32) := by
  rw [load_device h, hv]
  exact result_spec { s with draws := s.draws + 1 } rd v

/-- A store in a device region shows one event and changes nothing but `pc` (register 0 is clear). -/
theorem store_device_spec (h : InDevice s (s.ea rs1 imm) n) (hv : zextBytes n (s.reg rs2) = v) :
    ∃ t, s.store rs2 rs1 imm n = .next t ∧ t.events = s.events ++ [.devWrite (s.ea rs1 imm) n v] ∧
      KeepsMem s t ∧ KeepsRegs s t ∧ t.pc = s.pc + 4#32 ∧ t.csrs = s.csrs ∧ t.run = s.run ∧ t.cfg = s.cfg ∧
      t.draws = s.draws := by
  rw [store_device h, hv]
  exact ⟨_, rfl, rfl, ⟨rfl, fun _ => rfl⟩, fun r => State.reg_endStep _ _ r, rfl, rfl, rfl, rfl, rfl⟩

/-- A store in `pmem` writes the low `n` bytes of `x[rs2]` and changes nothing else but `pc` (register 0 is clear). -/
theorem store_pmem_spec (rs2 : RegIdx) (h : InPmem s (s.ea rs1 imm) n) :
    ∃ t, s.store rs2 rs1 imm n = .next t ∧ t.mem = s.mem.write (s.ea rs1 imm).toNat n (s.reg rs2) ∧
      KeepsRegs s t ∧ t.pc = s.pc + 4#32 ∧ t.csrs = s.csrs ∧ KeepsRest s t := by
  rw [store_pmem h]
  exact ⟨_, rfl, rfl, fun r => State.reg_endStep _ _ r, rfl, rfl, rfl, rfl, rfl, rfl⟩

end

/-- Settles O38: the draw is cut to the width of the load, then extended. -/
theorem deviceLoads : Obligations.DeviceLoads := by
  intro rd rs1 imm s
  refine ⟨fun h => ⟨?_, ?_⟩, fun h => ⟨?_, ?_⟩, fun h => ?_⟩
  · exact load_device_spec rd h (sext8_zextBytes _)
  · exact load_device_spec rd h (zextBytes_eq_setWidth 1 _)
  · exact load_device_spec rd h (sext16_zextBytes _)
  · exact load_device_spec rd h (zextBytes_eq_setWidth 2 _)
  · exact load_device_spec rd h (zextBytes_four _)

/-- Settles O40: the event carries the value cut to the width of the store. -/
theorem deviceStores : Obligations.DeviceStores := by
  intro rs2 rs1 imm s
  refine ⟨fun h => ?_, fun h => ?_, fun h => ?_⟩
  · exact store_device_spec h (zextBytes_eq_setWidth 1 _)
  · exact store_device_spec h (zextBytes_eq_setWidth 2 _)
  · exact store_device_spec h (zextBytes_four _)

/-! ## Right after a store (R75, R81) -/

theorem KeepsRegs.reg_eq {s t : State} (h : KeepsRegs s t) (hzero : s.reg 0#5 = 0#32) (r : RegIdx) :
    t.reg r = s.reg r := by
  rw [h r]
  split_ifs with hr
  · rw [hr, hzero]
  · rfl

theorem WritesReg.reg_dest {s t : State} {rd : RegIdx} {v : Word} (h : WritesReg s t rd v) (hrd : rd ≠ 0#5) :
    t.reg rd = v := by
  rw [h rd, if_neg hrd, if_pos rfl]

/-- A load right after a store of the same width at the same address writes what `ext` makes of the stored bytes. -/
theorem load_after_store {s : State} {rs1 rd r : RegIdx} {imm imm2 : BitVec 12} {n : Nat} (rs2 : RegIdx)
    (hrd : rd ≠ 0#5) (hzero : s.reg 0#5 = 0#32) (hea : s.ea r imm2 = s.ea rs1 imm) (h : InPmem s (s.ea rs1 imm) n) :
    ∃ t, s.store rs2 rs1 imm n = .next t ∧ ∀ (ext : Word → Word) (v : Word), ext (zextBytes n (s.reg rs2)) = v →
      ∃ u, t.load rd r imm2 n ext = .next u ∧ u.reg rd = v := by
  obtain ⟨t, ht, hmem, hregs, -, -, -, hcfg, -⟩ := store_pmem_spec rs2 h
  have heat : t.ea r imm2 = s.ea rs1 imm := by
    rw [← hea, State.ea, hregs.reg_eq hzero, State.ea]
  have hin : InPmem t (t.ea r imm2) n := by
    rw [heat, InPmem, hcfg]
    exact h
  refine ⟨t, ht, fun ext v hv => ?_⟩
  rw [load_pmem hin, heat, hmem, Memory.read_write_same, hv]
  obtain ⟨u, hu, hwrites, -⟩ := result_spec t rd v
  exact ⟨u, hu, hwrites.reg_dest hrd⟩

/-- Settles O41: `load_after_store` for each width and extension. -/
theorem storeThenLoadRoundTrip : Obligations.StoreThenLoadRoundTrip := by
  intro rs2 rs1 rd r imm imm2 s ea v hrd hzero hea
  refine ⟨fun h => ?_, fun h => ?_, fun h => ?_⟩
  · obtain ⟨t, ht, hload⟩ := load_after_store rs2 hrd hzero hea h
    obtain ⟨u, hu, huv⟩ := hload id v (zextBytes_four v)
    exact ⟨t, u, ht, hu, huv⟩
  · obtain ⟨t, ht, hload⟩ := load_after_store rs2 hrd hzero hea h
    obtain ⟨u, hu, huv⟩ := hload id _ (zextBytes_eq_setWidth 2 v)
    obtain ⟨w, hw, hwv⟩ := hload sext16 _ (sext16_zextBytes v)
    exact ⟨t, u, w, ht, hu, hw, huv, hwv⟩
  · obtain ⟨t, ht, hload⟩ := load_after_store rs2 hrd hzero hea h
    obtain ⟨u, hu, huv⟩ := hload id _ (zextBytes_eq_setWidth 1 v)
    obtain ⟨w, hw, hwv⟩ := hload sext8 _ (sext8_zextBytes v)
    exact ⟨t, u, w, ht, hu, hw, huv, hwv⟩

/-- Settles O42: the store leaves the engine Running at `pc + 4`, and the four bytes fetched there are those of the
stored word. -/
theorem storeIsSeenByTheNextFetch : Obligations.StoreIsSeenByTheNextFetch := by
  intro rs2 rs1 imm s hr hea hp
  change s.ea rs1 imm = s.pc + 4#32 at hea
  obtain ⟨t, ht, hmem, -, hpc, -, hrun, hcfg, -⟩ := store_pmem_spec rs2 (hea ▸ hp : InPmem s (s.ea rs1 imm) 4)
  have hin : InPmem t t.pc 4 := by
    rw [hpc, InPmem, hcfg]
    exact hp
  refine ⟨t, ht, ?_⟩
  rw [step_pmem (hrun.trans hr) hin, hpc, hmem, hea, Memory.read_write_same, zextBytes_four]

end Sys2Proof.Machine
end

section
/-! What no instruction but a store changes, the memory, and what none reads, the output record (`20_memory.md` R62, R70;
`43_control_transfer.md` R222; `60_exceptions.md` R254). -/

namespace Sys2Proof.Machine

/-! ## The memory -/

theorem Effect.mem_eq {i : Instr} {s u : State} (h : Effect i s u) (hi : isStore i = false) : u.mem = s.mem := by
  cases h with
  | store _ hstore => exact absurd (hstore.symm.trans hi) (by decide)
  | nothing | deviceRead | events | csrWrite | trap => rfl

theorem Ends.mem_eq {i : Instr} {s t : State} (h : Ends i s t) (hi : isStore i = false) : t.mem = s.mem := by
  cases h with
  | aborts | halts => rfl
  | goesOn heffect | writes heffect => exact heffect.mem_eq hi

/-- Settles O20: the ends of an instruction leave the memory alone, so only the effect of a store changes it. -/
theorem onlyStoresChangeMemory : Obligations.OnlyStoresChangeMemory := by
  intro i s t h hi
  have hmem : t.mem = s.mem := (ends_of_exec h).mem_eq hi
  exact ⟨hmem, State.byteAt_congr hmem⟩

/-! ## The output record -/

/-- The state with another output record. -/
abbrev State.withRecord (s : State) (other : List Event) : State := { s with events := other }

/-- Two outcomes, one over the record `old` and one over `other`, are the same next state with the same new events after
each record. -/
def SameButRecord (old other : List Event) (out out' : Out) : Prop :=
  ∃ t new, out = .next t ∧ t.events = old ++ new ∧ out' = .next (t.withRecord (other ++ new))

section
variable {old : List Event} (other : List Event)

/-- An end without a new event: every end of an instruction but that of a jump has this form. -/
theorem quiet_sameButRecord {t : State} (h : t.events = old) :
    SameButRecord old other (.next t) (.next (t.withRecord other)) :=
  ⟨t, [], rfl, by rw [h, List.append_nil], by rw [List.append_nil]⟩

variable (s : State)

theorem finish_sameButRecord (d : Word) :
    SameButRecord s.events other (s.finish d) ((s.withRecord other).finish d) :=
  quiet_sameButRecord other (t := s.endStep d) rfl

theorem result_sameButRecord (rd : RegIdx) (v : Word) :
    SameButRecord s.events other (s.result rd v) ((s.withRecord other).result rd v) :=
  finish_sameButRecord other (s.setReg rd v) s.snpc

theorem fatal_sameButRecord (why : Abort) :
    SameButRecord s.events other (s.fatal why) ((s.withRecord other).fatal why) :=
  quiet_sameButRecord other (t := { s with run := .aborted why }) rfl

theorem jump_sameButRecord (rd : RegIdx) (target : Word) (trace : List Event) :
    SameButRecord s.events other (s.jump rd target trace) ((s.withRecord other).jump rd target trace) :=
  ⟨_, trace, rfl, rfl, rfl⟩

theorem branch_sameButRecord (taken : Bool) (off : BitVec 13) :
    SameButRecord s.events other (s.branch taken off) ((s.withRecord other).branch taken off) :=
  finish_sameButRecord other s _

theorem load_sameButRecord (rd rs1 : RegIdx) (imm : BitVec 12) (n : Nat) (ext : Word → Word) :
    SameButRecord s.events other (s.load rd rs1 imm n ext) ((s.withRecord other).load rd rs1 imm n ext) := by
  rcases access_cases s (s.ea rs1 imm) n with hp | hd | ho
  · rw [load_pmem hp, load_pmem (s := s.withRecord other) hp]
    exact result_sameButRecord other s rd _
  · rw [load_device hd, load_device (s := s.withRecord other) hd]
    exact result_sameButRecord other { s with draws := s.draws + 1 } rd _
  · rw [load_outOfBounds ho, load_outOfBounds (s := s.withRecord other) ho]
    exact fatal_sameButRecord other s _

/-- A device write is the one event besides a jump's. -/
theorem store_sameButRecord (rs2 rs1 : RegIdx) (imm : BitVec 12) (n : Nat) :
    SameButRecord s.events other (s.store rs2 rs1 imm n) ((s.withRecord other).store rs2 rs1 imm n) := by
  rcases access_cases s (s.ea rs1 imm) n with hp | hd | ho
  · rw [store_pmem hp, store_pmem (s := s.withRecord other) hp]
    exact finish_sameButRecord other { s with mem := s.mem.write (s.ea rs1 imm).toNat n (s.reg rs2) } _
  · rw [store_device hd, store_device (s := s.withRecord other) hd]
    exact ⟨_, [.devWrite (s.ea rs1 imm) n (zextBytes n (s.reg rs2))], rfl, rfl, rfl⟩
  · rw [store_outOfBounds ho, store_outOfBounds (s := s.withRecord other) ho]
    exact fatal_sameButRecord other s _

theorem divide_sameButRecord (rd : RegIdx) (corner : Bool) (v : Word) :
    SameButRecord s.events other (s.divide rd corner v) ((s.withRecord other).divide rd corner v) := by
  by_cases hfault : s.cfg.divCorner = .fault ∧ corner = true
  · rw [State.divide, State.divide, if_pos hfault, if_pos hfault]
    exact fatal_sameButRecord other s _
  · rw [State.divide, State.divide, if_neg hfault, if_neg hfault]
    exact result_sameButRecord other s rd v

/-- Neither handler sees the record (R254, R255). -/
theorem takeTrap_withRecord (no epc : Word) :
    (s.withRecord other).takeTrap no epc = ((s.takeTrap no epc).1.withRecord other, (s.takeTrap no epc).2) := by
  cases hhandler : s.cfg.trapHandler <;> simp [State.takeTrap, hhandler]

theorem ecall_sameButRecord : SameButRecord s.events other (execEcall s) (execEcall (s.withRecord other)) := by
  have hanswer := takeTrap_withRecord other s (s.reg s.cfg.syscallNoReg) s.pc
  obtain ⟨c, d, h⟩ := takeTrap_keeps s (s.reg s.cfg.syscallNoReg) s.pc
  rw [h] at hanswer
  have hover : execEcall (s.withRecord other) = (State.withRecord { s with csrs := c } other).finish d :=
    congrArg (fun answer => answer.1.finish answer.2) hanswer
  rw [execEcall, h, hover]
  exact finish_sameButRecord other { s with csrs := c } d

/-- No instruction reads the record. -/
theorem exec_sameButRecord (i : Instr) : SameButRecord s.events other (exec i s) (exec i (s.withRecord other)) :=
  match i with
  | .lui .. | .auipc .. => result_sameButRecord other s _ _
  | .addi .. | .slti .. | .sltiu .. | .xori .. | .ori .. | .andi .. => result_sameButRecord other s _ _
  | .slli .. | .srli .. | .srai .. => result_sameButRecord other s _ _
  | .add .. | .sub .. | .sll .. | .slt .. | .sltu .. => result_sameButRecord other s _ _
  | .xor .. | .srl .. | .sra .. | .or .. | .and .. => result_sameButRecord other s _ _
  | .mul .. | .mulh .. | .mulhsu .. | .mulhu .. => result_sameButRecord other s _ _
  | .div .. | .divu .. | .rem .. | .remu .. => divide_sameButRecord other s _ _ _
  | .jal .. | .jalr .. => jump_sameButRecord other s _ _ _
  | .beq .. | .bne .. | .blt .. | .bge .. | .bltu .. | .bgeu .. => branch_sameButRecord other s _ _
  | .lb .. | .lh .. | .lw .. | .lbu .. | .lhu .. => load_sameButRecord other s _ _ _ _ _
  | .sb .. | .sh .. | .sw .. => store_sameButRecord other s _ _ _ _
  | .ecall => ecall_sameButRecord other s
  | .ebreak => finish_sameButRecord other { s with run := .ended s.pc (s.reg s.cfg.haltRetReg) } _
  | .mret => finish_sameButRecord other s _
  | .csrrw _ csr rs1 => result_sameButRecord other (s.setCsr csr (s.reg rs1)) _ _
  | .csrrs _ csr rs1 => result_sameButRecord other (s.setCsr csr (s.csr csr ||| s.reg rs1)) _ _
  | .inv _ => fatal_sameButRecord other s _

end

/-- Settles O21: `exec_sameButRecord`, read at the state that `exec` answers. -/
theorem outputsAreNeverRead : Obligations.OutputsAreNeverRead := by
  intro i s t other h
  obtain ⟨t', new, ht', hevents, hother⟩ := exec_sameButRecord other s i
  obtain rfl := Host.Outcome.next.inj (h.symm.trans ht')
  exact ⟨new, hevents, hother⟩

end Sys2Proof.Machine
end

section
/-! Every word is the word of the instruction it decodes to: each format puts its fields back where it reads them, and a
row's mask keeps exactly the fields that its format does not read (`30_encoding.md` R91 to R104). -/

namespace Sys2Proof

/-! ## The word that a format's fields make up (R91) -/

theorem encodeU_fields (w : Word) : encodeU (immUOf w) (rdOf w) (opcodeOf w) = w := by
  apply BitVec.eq_of_getLsbD_eq
  intro i hi
  rw [encodeU_place]
  interval_cases i <;> simp [place, immUOf, rdOf, opcodeOf]

theorem encodeJ_fields (w : Word) : encodeJ (immJOf w) (rdOf w) (opcodeOf w) = w := by
  apply BitVec.eq_of_getLsbD_eq
  intro i hi
  rw [encodeJ_place, immJOf_bits]
  interval_cases i <;> simp [place, rdOf, opcodeOf]

theorem encodeI_fields (w : Word) : encodeI (immIOf w) (rs1Of w) (funct3Of w) (rdOf w) (opcodeOf w) = w := by
  apply BitVec.eq_of_getLsbD_eq
  intro i hi
  rw [encodeI_place]
  interval_cases i <;> simp [place, immIOf, rs1Of, funct3Of, rdOf, opcodeOf]

theorem encodeS_fields (w : Word) : encodeS (immSOf w) (rs2Of w) (rs1Of w) (funct3Of w) (opcodeOf w) = w := by
  apply BitVec.eq_of_getLsbD_eq
  intro i hi
  rw [encodeS_place, immSOf_bits]
  interval_cases i <;> simp [place, rs2Of, rs1Of, funct3Of, opcodeOf]

theorem encodeB_fields (w : Word) : encodeB (immBOf w) (rs2Of w) (rs1Of w) (funct3Of w) (opcodeOf w) = w := by
  apply BitVec.eq_of_getLsbD_eq
  intro i hi
  rw [encodeB_place, immBOf_bits]
  interval_cases i <;> simp [place, rs2Of, rs1Of, funct3Of, opcodeOf]

theorem encodeR_fields (w : Word) :
    encodeR (funct7Of w) (rs2Of w) (rs1Of w) (funct3Of w) (rdOf w) (opcodeOf w) = w := by
  apply BitVec.eq_of_getLsbD_eq
  intro i hi
  rw [encodeR_place]
  interval_cases i <;> simp [place, funct7Of, rs2Of, rs1Of, funct3Of, rdOf, opcodeOf]

/-! ## A format's fixed bits and its operands (R92, R93) -/

/-- The bits that a row of this format fixes: all those its operand extractor does not read. -/
def Shape.mask : Shape → Word
  | .u _ | .j _ => 0x0000007f#32
  | .i _ | .csr _ | .s _ | .b _ => 0x0000707f#32
  | .r _ | .shift _ => 0xfe00707f#32
  | .n _ => 0xffffffff#32
  | .inv => 0x00000000#32

/-- The word with a row's fixed bits and the operand fields of `w`. -/
def Shape.assemble (fixed w : Word) : Shape → Word
  | .u _ => encodeU (immUOf w) (rdOf w) (opcodeOf fixed)
  | .j _ => encodeJ (immJOf w) (rdOf w) (opcodeOf fixed)
  | .i _ | .csr _ => encodeI (immIOf w) (rs1Of w) (funct3Of fixed) (rdOf w) (opcodeOf fixed)
  | .s _ => encodeS (immSOf w) (rs2Of w) (rs1Of w) (funct3Of fixed) (opcodeOf fixed)
  | .b _ => encodeB (immBOf w) (rs2Of w) (rs1Of w) (funct3Of fixed) (opcodeOf fixed)
  | .r _ | .shift _ => encodeR (funct7Of fixed) (rs2Of w) (rs1Of w) (funct3Of fixed) (rdOf w) (opcodeOf fixed)
  | .n _ => fixed
  | .inv => w

/-- Masking keeps a field all of whose bits are in the mask. -/
theorem extractLsb'_and_of_allOnes {m : Word} {lo n : Nat} (hm : m.extractLsb' lo n = BitVec.allOnes n) (w : Word) :
    (w &&& m).extractLsb' lo n = w.extractLsb' lo n := by
  rw [BitVec.extractLsb'_and, hm, BitVec.and_allOnes]

/-- A word's fixed bits and its operand fields make up the word. -/
theorem Shape.assemble_self (w : Word) (sh : Shape) : sh.assemble (w &&& sh.mask) w = w := by
  have hop (m : Word) (hm : opcodeOf m = BitVec.allOnes 7) : opcodeOf (w &&& m) = opcodeOf w :=
    extractLsb'_and_of_allOnes hm w
  have hf3 (m : Word) (hm : funct3Of m = BitVec.allOnes 3) : funct3Of (w &&& m) = funct3Of w :=
    extractLsb'_and_of_allOnes hm w
  have hf7 (m : Word) (hm : funct7Of m = BitVec.allOnes 7) : funct7Of (w &&& m) = funct7Of w :=
    extractLsb'_and_of_allOnes hm w
  cases sh with
  | u =>
    rw [Shape.assemble, Shape.mask, hop _ (by decide), encodeU_fields]
  | j =>
    rw [Shape.assemble, Shape.mask, hop _ (by decide), encodeJ_fields]
  | i | csr =>
    rw [Shape.assemble, Shape.mask, hop _ (by decide), hf3 _ (by decide), encodeI_fields]
  | s =>
    rw [Shape.assemble, Shape.mask, hop _ (by decide), hf3 _ (by decide), encodeS_fields]
  | b =>
    rw [Shape.assemble, Shape.mask, hop _ (by decide), hf3 _ (by decide), encodeB_fields]
  | r | shift =>
    rw [Shape.assemble, Shape.mask, hop _ (by decide), hf3 _ (by decide), hf7 _ (by decide), encodeR_fields]
  | n => exact BitVec.and_allOnes
  | inv => rfl

theorem evenOffset_immJOf (w : Word) : evenOffset (immJOf w) = true := by
  simp [evenOffset, immJOf_bits]

theorem evenOffset_immBOf (w : Word) : evenOffset (immBOf w) = true := by
  simp [evenOffset, immBOf_bits]

/-! ## The 50 rows (R95) -/

theorem shape_mask_of_mem {r : Row} (hr : r ∈ instrRows) : r.shape.mask = r.mask := by
  have hall : ∀ q ∈ instrRows, q.shape.mask = q.mask := by decide
  exact hall r hr

/-- The encoder puts a row's fixed bits around the operands that the row's format reads. -/
theorem encode_read {r : Row} (hr : r ∈ instrRows) (w : Word) :
    encode (r.shape.read w) = r.shape.assemble r.fixed w := by
  fin_cases hr <;> rfl

/-- Only the formats with an implicit zero bit read an operand that well-formedness asks something of. -/
theorem wf_read {r : Row} (hr : r ∈ instrRows) (w : Word) : (r.shape.read w).wf = true := by
  fin_cases hr <;> simp [Shape.read, Instr.wf, evenOffset_immJOf, evenOffset_immBOf]

theorem encode_read_of_hits {r : Row} (hr : r ∈ instrRows) {w : Word} (h : r.hits w = true) :
    encode (r.shape.read w) = w := by
  have hfixed : w &&& r.mask = r.fixed := beq_iff_eq.mp h
  rw [encode_read hr, ← hfixed, ← shape_mask_of_mem hr, Shape.assemble_self]

/-- A word matches one of the 50 rows, or none of them. -/
theorem hits_or_unmatched (w : Word) : (∃ r ∈ instrRows, r.hits w = true) ∨ unmatched w = true := by
  by_cases h : ∃ r ∈ instrRows, r.hits w = true
  · exact .inl h
  · refine .inr (List.all_eq_true.mpr fun r hr => ?_)
    rw [Bool.not_eq_true']
    exact Bool.eq_false_of_not_eq_true fun hhit => h ⟨r, hr, hhit⟩

/-- Every instruction has a row that matches its word and reads it back, or is `inv`. -/
theorem rowHit : ∀ i : Instr, Laws.RowHit.Statement i
  | .lui .. => Laws.RowHit.lui _ _
  | .auipc .. => Laws.RowHit.auipc _ _
  | .jal .. => Laws.RowHit.jal _ _
  | .jalr .. => Laws.RowHit.jalr _ _ _
  | .beq .. => Laws.RowHit.beq _ _ _
  | .bne .. => Laws.RowHit.bne _ _ _
  | .blt .. => Laws.RowHit.blt _ _ _
  | .bge .. => Laws.RowHit.bge _ _ _
  | .bltu .. => Laws.RowHit.bltu _ _ _
  | .bgeu .. => Laws.RowHit.bgeu _ _ _
  | .lb .. => Laws.RowHit.lb _ _ _
  | .lh .. => Laws.RowHit.lh _ _ _
  | .lw .. => Laws.RowHit.lw _ _ _
  | .lbu .. => Laws.RowHit.lbu _ _ _
  | .lhu .. => Laws.RowHit.lhu _ _ _
  | .sb .. => Laws.RowHit.sb _ _ _
  | .sh .. => Laws.RowHit.sh _ _ _
  | .sw .. => Laws.RowHit.sw _ _ _
  | .addi .. => Laws.RowHit.addi _ _ _
  | .slti .. => Laws.RowHit.slti _ _ _
  | .sltiu .. => Laws.RowHit.sltiu _ _ _
  | .xori .. => Laws.RowHit.xori _ _ _
  | .ori .. => Laws.RowHit.ori _ _ _
  | .andi .. => Laws.RowHit.andi _ _ _
  | .slli .. => Laws.RowHit.slli _ _ _
  | .srli .. => Laws.RowHit.srli _ _ _
  | .srai .. => Laws.RowHit.srai _ _ _
  | .add .. => Laws.RowHit.add _ _ _
  | .sub .. => Laws.RowHit.sub _ _ _
  | .sll .. => Laws.RowHit.sll _ _ _
  | .slt .. => Laws.RowHit.slt _ _ _
  | .sltu .. => Laws.RowHit.sltu _ _ _
  | .xor .. => Laws.RowHit.xor _ _ _
  | .srl .. => Laws.RowHit.srl _ _ _
  | .sra .. => Laws.RowHit.sra _ _ _
  | .or .. => Laws.RowHit.or _ _ _
  | .and .. => Laws.RowHit.and _ _ _
  | .mul .. => Laws.RowHit.mul _ _ _
  | .mulh .. => Laws.RowHit.mulh _ _ _
  | .mulhsu .. => Laws.RowHit.mulhsu _ _ _
  | .mulhu .. => Laws.RowHit.mulhu _ _ _
  | .div .. => Laws.RowHit.div _ _ _
  | .divu .. => Laws.RowHit.divu _ _ _
  | .rem .. => Laws.RowHit.rem _ _ _
  | .remu .. => Laws.RowHit.remu _ _ _
  | .ecall => Laws.RowHit.ecall
  | .ebreak => Laws.RowHit.ebreak
  | .mret => Laws.RowHit.mret
  | .csrrw .. => Laws.RowHit.csrrw _ _ _
  | .csrrs .. => Laws.RowHit.csrrs _ _ _
  | .inv w => Laws.RowHit.inv w

/-! ## The statements about encoding and decoding -/

/-- Settles O1: a word that matches a row decodes by that row, and an instruction's row reads it back. -/
theorem decodeOfEncodeIsIdentity : Obligations.DecodeOfEncodeIsIdentity := by
  intro i hi
  rcases rowHit i hi with ⟨r, hr, hhit, hread⟩ | ⟨w, rfl, hw⟩
  · exact (decodeWord_of_hits hr hhit).trans hread
  · exact decodeWord_of_unmatched hw

/-- Settles O2: the row that a word matches reads its operands and fixes its other bits; a word that no row matches is
the word of its `inv`. -/
theorem encodeOfDecodeIsIdentity : Obligations.EncodeOfDecodeIsIdentity := by
  intro w
  rcases hits_or_unmatched w with ⟨r, hr, hhit⟩ | hw
  · rw [decodeWord_of_hits hr hhit]
    exact ⟨wf_read hr w, encode_read_of_hits hr hhit⟩
  · rw [decodeWord_of_unmatched hw]
    exact ⟨hw, rfl⟩

/-- The first match of a table is the row it is read by. -/
theorem decodeWord_of_first_hit {before after : List Row} {r : Row} {w : Word} (htable : table = before ++ r :: after)
    (hhit : r.hits w = true) (hbefore : ∀ q ∈ before, q.hits w = false) : decodeWord w = r.shape.read w := by
  have hmiss : ∀ q ∈ before, (!q.hits w) = true := fun q hq => by rw [hbefore q hq, Bool.not_false]
  have hfirst : table.find? (fun q => q.hits w) = some r :=
    List.find?_eq_some_iff_append.mpr ⟨hhit, before, after, htable, hmiss⟩
  rw [decodeWord, hfirst]

theorem invRow_hits (w : Word) : invRow.hits w = true := beq_iff_eq.mpr BitVec.and_zero

/-- Two of the 50 rows that match a common word are the same row. -/
theorem row_unique {r q : Row} (hr : r ∈ instrRows) (hq : q ∈ instrRows) {w : Word} (hrw : r.hits w = true)
    (hqw : q.hits w = true) : r = q :=
  Option.some.inj ((find_of_hits instrRows_apart hr hrw).symm.trans (find_of_hits instrRows_apart hq hqw))

/-- Settles O3: decoding answers the first match, and the 50 rows are pairwise apart. -/
theorem firstFullMatchWins : Obligations.FirstFullMatchWins :=
  ⟨fun _ _ _ _ htable hhit hbefore => decodeWord_of_first_hit htable hhit hbefore,
    instrRows, rfl, rfl, invRow_hits, fun _ hr _ hq _ => row_unique hr hq⟩

/-- Every row has 11 in the low two bits of its pattern (R108). -/
theorem row_low_bits {r : Row} (hr : r ∈ instrRows) :
    r.mask.extractLsb' 0 2 = BitVec.allOnes 2 ∧ r.fixed.extractLsb' 0 2 = 0b11#2 := by
  have hall : ∀ q ∈ instrRows, q.mask.extractLsb' 0 2 = BitVec.allOnes 2 ∧ q.fixed.extractLsb' 0 2 = 0b11#2 := by
    decide
  exact hall r hr

theorem low_bits_of_hits {r : Row} (hr : r ∈ instrRows) {w : Word} (h : r.hits w = true) :
    w.extractLsb' 0 2 = 0b11#2 := by
  obtain ⟨hmask, hlow⟩ := row_low_bits hr
  have hfixed : w &&& r.mask = r.fixed := beq_iff_eq.mp h
  rw [← extractLsb'_and_of_allOnes hmask, hfixed, hlow]

/-- Settles O5: a word with other low bits matches none of the 50 rows. -/
theorem compressedFormsAreInvalid : Obligations.CompressedFormsAreInvalid := by
  refine ⟨fun r hr w => low_bits_of_hits hr, fun w hlow => ?_⟩
  rcases hits_or_unmatched w with ⟨r, hr, hhit⟩ | hw
  · exact absurd (low_bits_of_hits hr hhit) hlow
  · exact decodeWord_of_unmatched hw

/-- Settles O4: six closed words, each decoded by computation. -/
theorem sampleWordsDecode : Obligations.SampleWordsDecode := by
  unfold Obligations.SampleWordsDecode
  decide

namespace Machine

/-- Settles O8: the word that the fetch reads in `pmem` is the word of the four bytes. -/
theorem stepRunsTheDecodedInstruction : Obligations.StepRunsTheDecodedInstruction := by
  intro s i rest hr hp hdecode
  obtain ⟨rfl, -⟩ := Prod.mk.inj (Except.ok.inj hdecode)
  rw [step_pmem hr hp, Memory.read_four]
  rfl

end Machine
end Sys2Proof
end

section
/-! The two halves that `li` and `call` cut a value into, and what their expansions leave (`30_encoding.md` R110). -/

namespace Sys2Proof.Machine

/-! ## The high and the low part of a value -/

theorem toNat_imm20_highPart (v : Word) :
    (imm20 (highPart v)).toNat = (v.toNat + 2 ^ 11) % 2 ^ 32 / 2 ^ 12 * 2 ^ 12 := by
  have hhigh : (highPart v).toNat = (v.toNat + 2 ^ 11) % 2 ^ 32 / 2 ^ 12 := by
    rw [highPart, BitVec.extractLsb'_toNat, BitVec.toNat_add, Nat.shiftRight_eq_div_pow]
    exact Nat.mod_eq_of_lt (by omega)
  rw [imm20, BitVec.toNat_append, BitVec.toNat_zero, Nat.or_zero, Nat.shiftLeft_eq, hhigh]

/-- The low part is signed: from 2048 up it stands for itself less 4096. -/
theorem toNat_imm12_lowPart (v : Word) :
    (imm12 (lowPart v)).toNat = v.toNat % 2 ^ 12 + if 2 ^ 11 ≤ v.toNat % 2 ^ 12 then 2 ^ 32 - 2 ^ 12 else 0 := by
  have hlow : (lowPart v).toNat = v.toNat % 2 ^ 12 := BitVec.extractLsb'_toNat 0 12 v
  have hwiden : (lowPart v).toNat % 2 ^ 32 = (lowPart v).toNat := Nat.mod_eq_of_lt (by omega)
  rw [imm12, BitVec.toNat_signExtend, BitVec.toNat_setWidth, hwiden, BitVec.msb_eq_decide, hlow]
  simp only [decide_eq_true_eq]

/-- The high part is rounded up exactly when the low part is negative, so the two add up to the value. -/
theorem highPart_add_lowPart (v : Word) : imm20 (highPart v) + imm12 (lowPart v) = v := by
  apply BitVec.eq_of_toNat_eq
  have hv : v.toNat < 2 ^ 32 := v.isLt
  rw [BitVec.toNat_add, toNat_imm20_highPart, toNat_imm12_lowPart]
  split_ifs <;> omega

/-- A value between -2048 and 2047 is its own low part. -/
theorem imm12_lowPart_of_small {v : Word} (hlo : -2048 ≤ v.toInt) (hhi : v.toInt ≤ 2047) :
    imm12 (lowPart v) = v := by
  apply BitVec.eq_of_toNat_eq
  rw [BitVec.toInt_eq_toNat_cond] at hlo hhi
  rw [toNat_imm12_lowPart]
  split_ifs at hlo hhi ⊢ <;> omega

/-! ## The expansions -/

/-- Settles O57: a small value is one ADDI from register 0; any other is its high part, then ADDI of its low part. -/
theorem loadImmediateExpansion : Obligations.LoadImmediateExpansion := by
  intro rd imm pc s hrd hzero
  by_cases hsmall : -2048 ≤ imm.toInt ∧ imm.toInt ≤ 2047
  · obtain ⟨t, ht, hwrites, -⟩ := result_spec s rd (s.reg 0#5 + imm12 (lowPart imm))
    refine .inl ⟨_, t, if_pos hsmall, ht, ?_⟩
    rw [hwrites.reg_dest hrd, hzero, BitVec.zero_add, imm12_lowPart_of_small hsmall.1 hsmall.2]
  · obtain ⟨t, ht, htwrites, -⟩ := result_spec s rd (imm20 (highPart imm))
    obtain ⟨u, hu, huwrites, -⟩ := result_spec t rd (t.reg rd + imm12 (lowPart imm))
    refine .inr ⟨_, _, t, u, if_neg hsmall, ht, hu, ?_⟩
    rw [huwrites.reg_dest hrd, htwrites.reg_dest hrd, highPart_add_lowPart]

/-- JALR links, and goes to its target with bit 0 cleared (R218). -/
theorem jalr_links (s : State) (rd rs1 : RegIdx) (imm : BitVec 12) :
    ∃ t, exec (.jalr rd rs1 imm) s = .next t ∧ WritesReg s t rd (s.pc + 4#32) ∧
      t.pc = (s.reg rs1 + imm12 imm) &&& ~~~1#32 := by
  obtain ⟨t, ht, hwrites, hpc, -⟩ := jump_spec s rd ((s.reg rs1 + imm12 imm) &&& ~~~1#32) _
  exact ⟨t, ht, hwrites, hpc⟩

/-- Settles O58: AUIPC leaves `pc` plus the high part in `ra`, and JALR adds the low part and links. -/
theorem farCallExpansion : Obligations.FarCallExpansion := by
  intro target s
  obtain ⟨t, ht, htwrites, htpc, -⟩ := result_spec s 1#5 (s.pc + imm20 (highPart (target - s.pc)))
  have hra : t.reg 1#5 = s.pc + imm20 (highPart (target - s.pc)) := htwrites.reg_dest (by decide)
  obtain ⟨u, hu, huwrites, hupc⟩ := jalr_links t 1#5 1#5 (lowPart (target - s.pc))
  refine ⟨_, _, t, u, rfl, ht, hu, ?_, ?_⟩
  · rw [hupc, hra, BitVec.add_assoc, highPart_add_lowPart, BitVec.add_comm, BitVec.sub_add_cancel]
  · rw [huwrites.reg_dest (by decide), htpc, BitVec.add_assoc]
    rfl

end Sys2Proof.Machine
end

section
/-! The words of the shifts by an immediate: which field of an R-format word is where, and that a `funct7` no shift row
fixes makes the word invalid (`30_encoding.md` R91, R103; `40_integer_alu.md` R139 to R141). -/

namespace Sys2Proof

theorem opcodeOf_encodeR (f7 : BitVec 7) (rs2 rs1 : RegIdx) (f3 : BitVec 3) (rd : RegIdx) (op : BitVec 7) :
    opcodeOf (encodeR f7 rs2 rs1 f3 rd op) = op :=
  BitVec.extractLsb'_append_eq_right

theorem funct3Of_encodeR (f7 : BitVec 7) (rs2 rs1 : RegIdx) (f3 : BitVec 3) (rd : RegIdx) (op : BitVec 7) :
    funct3Of (encodeR f7 rs2 rs1 f3 rd op) = f3 := by
  apply BitVec.eq_of_getLsbD_eq
  intro i hi
  rw [encodeR_place]
  interval_cases i <;> simp [place, funct3Of]

theorem funct7Of_encodeR (f7 : BitVec 7) (rs2 rs1 : RegIdx) (f3 : BitVec 3) (rd : RegIdx) (op : BitVec 7) :
    funct7Of (encodeR f7 rs2 rs1 f3 rd op) = f7 := by
  apply BitVec.eq_of_getLsbD_eq
  intro i hi
  rw [encodeR_place]
  interval_cases i <;> simp [place, funct7Of]

/-- A word has every field that the row it matches fixes. -/
theorem extractLsb'_of_hits {r : Row} {w : Word} {lo n : Nat} (h : r.hits w = true)
    (hm : r.mask.extractLsb' lo n = BitVec.allOnes n) : w.extractLsb' lo n = r.fixed.extractLsb' lo n := by
  have hfixed : w &&& r.mask = r.fixed := beq_iff_eq.mp h
  rw [← hfixed, extractLsb'_and_of_allOnes hm]

/-- The rows of the ALU-with-immediate opcode fix `funct3`, and with the `funct3` of a shift they fix `funct7` too, as
0000000, or for a right shift as 0100000. -/
theorem shift_row_funct7 :
    ∀ r ∈ instrRows, opcodeOf r.fixed = 0b0010011#7 → funct3Of r.mask = BitVec.allOnes 3 ∧
      (funct3Of r.fixed = 0b001#3 ∨ funct3Of r.fixed = 0b101#3 → funct7Of r.mask = BitVec.allOnes 7 ∧
        (funct7Of r.fixed = 0b0000000#7 ∨ funct3Of r.fixed = 0b101#3 ∧ funct7Of r.fixed = 0b0100000#7)) := by
  decide

/-- A word with the opcode and `funct3` of a shift by an immediate and with any other `funct7` is invalid. -/
theorem decodeWord_shift_other_funct7 {f7 : BitVec 7} {f3 : BitVec 3} (k rs1 rd : RegIdx)
    (hf3 : f3 = 0b001#3 ∨ f3 = 0b101#3) (hzero : f7 ≠ 0b0000000#7) (harith : f3 = 0b101#3 → f7 ≠ 0b0100000#7) :
    decodeWord (encodeR f7 k rs1 f3 rd 0b0010011#7) = .inv (encodeR f7 k rs1 f3 rd 0b0010011#7) := by
  rcases hits_or_unmatched (encodeR f7 k rs1 f3 rd 0b0010011#7) with ⟨r, hr, hhit⟩ | hun
  · have hop : opcodeOf r.fixed = 0b0010011#7 := (opcodeOf_of_hits hr hhit).symm.trans (opcodeOf_encodeR ..)
    obtain ⟨hmask3, hshift⟩ := shift_row_funct7 r hr hop
    have hrow3 : funct3Of r.fixed = f3 := (extractLsb'_of_hits hhit hmask3).symm.trans (funct3Of_encodeR ..)
    rw [hrow3] at hshift
    obtain ⟨hmask7, hvalid⟩ := hshift hf3
    have hrow7 : funct7Of r.fixed = f7 := (extractLsb'_of_hits hhit hmask7).symm.trans (funct7Of_encodeR ..)
    rw [hrow7] at hvalid
    rcases hvalid with hlogic | ⟨hright, hsra⟩
    · exact absurd hlogic hzero
    · exact absurd hsra (harith hright)
  · exact decodeWord_of_unmatched hun

end Sys2Proof
end

section
/-! Integer arithmetic, logic, shifts and comparisons: each result as the arithmetic of the operands' values, and the
statements about the instructions (`40_integer_alu.md` R130 to R151). -/

namespace Sys2Proof.Machine

/-! ## Results as arithmetic (R10, R130) -/

theorem sub_eq_ofInt_sub (a b : Word) : a - b = BitVec.ofInt 32 ((a.toNat : Int) - (b.toNat : Int)) := by
  apply BitVec.eq_of_toInt_eq
  rw [BitVec.toInt_sub, BitVec.toInt_ofInt, BitVec.toInt_eq_toNat_bmod, BitVec.toInt_eq_toNat_bmod,
    Int.sub_bmod_bmod, Int.bmod_sub_bmod]

theorem shiftLeft_eq_ofNat_mul (v : Word) (n : Nat) : v <<< n = BitVec.ofNat 32 (v.toNat * 2 ^ n) := by
  apply BitVec.eq_of_toNat_eq
  rw [BitVec.toNat_shiftLeft, BitVec.toNat_ofNat, Nat.shiftLeft_eq]

theorem ushiftRight_eq_ofNat_div (v : Word) (n : Nat) : v >>> n = BitVec.ofNat 32 (v.toNat / 2 ^ n) := by
  rw [← Nat.shiftRight_eq_div_pow, ← BitVec.toNat_ushiftRight, BitVec.ofNat_toNat, BitVec.setWidth_eq]

/-- Division of `Int` by a positive number is floor division, so the sign bits that come in are those of the floor. -/
theorem sshiftRight_eq_ofInt_div (v : Word) (n : Nat) : v.sshiftRight n = BitVec.ofInt 32 (v.toInt / 2 ^ n) := by
  rw [BitVec.sshiftRight_eq, Int.shiftRight_eq_div_pow, Nat.cast_pow, Nat.cast_ofNat]

theorem shiftAmount_eq_mod (v : Word) : shiftAmount v = v.toNat % 32 :=
  BitVec.extractLsb'_toNat 0 5 v

/-- The amount of a shift by an immediate, for both settings of SHAMT_SOURCE (R103). -/
theorem State.shamt_eq (s : State) (k : BitVec 5) :
    s.shamt k = if s.cfg.shamtSource = .field then k.toNat else (s.reg k).toNat % 32 := by
  rw [State.shamt]
  cases s.cfg.shamtSource with
  | field => rfl
  | register => exact shiftAmount_eq_mod _

theorem flagWord_ltS (a b : Word) : flagWord (ltS a b) = if a.toInt < b.toInt then 1#32 else 0#32 := by
  simp only [flagWord, ltS, decide_eq_true_eq]

theorem flagWord_ltU (a b : Word) : flagWord (ltU a b) = if a.toNat < b.toNat then 1#32 else 0#32 := by
  simp only [flagWord, ltU, decide_eq_true_eq]

theorem toInt_imm12 (imm : BitVec 12) : (imm12 imm).toInt = imm.toInt :=
  BitVec.toInt_signExtend_of_le (by decide)

/-- `result_spec` for a value given in another form. -/
theorem result_spec_of_eq (s : State) (rd : RegIdx) {v v' : Word} (hv : v = v') :
    ∃ t, s.result rd v = .next t ∧ OnlyWrites s t rd v' (s.pc + 4#32) :=
  hv ▸ result_spec s rd v

/-! ## The immediates (R131 to R138) -/

/-- Settles O23: the encoder lays out the two words, and each instruction ends with its result. -/
theorem upperImmediates : Obligations.UpperImmediates := fun rd imm s =>
  ⟨decodeOfEncodeIsIdentity (.lui rd imm) rfl, decodeOfEncodeIsIdentity (.auipc rd imm) rfl,
    result_spec s rd _, result_spec s rd _⟩

/-- Settles O24: the encoder lays out the four words, and each instruction ends with its result. -/
theorem addAndLogicImmediates : Obligations.AddAndLogicImmediates := fun rd rs1 imm s =>
  ⟨decodeOfEncodeIsIdentity (.addi rd rs1 imm) rfl, decodeOfEncodeIsIdentity (.xori rd rs1 imm) rfl,
    decodeOfEncodeIsIdentity (.ori rd rs1 imm) rfl, decodeOfEncodeIsIdentity (.andi rd rs1 imm) rfl,
    result_spec s rd _, result_spec s rd _, result_spec s rd _, result_spec s rd _⟩

/-- Settles O25: sign extension keeps the signed value of the immediate, so SLTI compares with the immediate itself. -/
theorem setLessThanImmediates : Obligations.SetLessThanImmediates := by
  intro rd rs1 imm s
  have hslti : flagWord (ltS (s.reg rs1) (imm12 imm)) = if (s.reg rs1).toInt < imm.toInt then 1#32 else 0#32 := by
    rw [flagWord_ltS, toInt_imm12]
  exact ⟨decodeOfEncodeIsIdentity (.slti rd rs1 imm) rfl, decodeOfEncodeIsIdentity (.sltiu rd rs1 imm) rfl,
    result_spec_of_eq s rd hslti, result_spec_of_eq s rd (flagWord_ltU _ _)⟩

/-- Settles O26: the shifts as arithmetic by the amount that SHAMT_SOURCE selects, and the words of other `funct7`. -/
theorem shiftsByImmediate : Obligations.ShiftsByImmediate := by
  intro rd rs1 k s n
  have hn : s.shamt k = n := s.shamt_eq k
  refine ⟨decodeOfEncodeIsIdentity (.slli rd rs1 k) rfl, decodeOfEncodeIsIdentity (.srli rd rs1 k) rfl,
    decodeOfEncodeIsIdentity (.srai rd rs1 k) rfl, fun f7 hzero => ?_, fun f7 hzero harith => ?_, ?_, ?_, ?_⟩
  · exact decodeWord_shift_other_funct7 k rs1 rd (.inl rfl) hzero fun h => absurd h (by decide)
  · exact decodeWord_shift_other_funct7 k rs1 rd (.inr rfl) hzero fun _ => harith
  · exact result_spec_of_eq s rd (hn ▸ shiftLeft_eq_ofNat_mul (s.reg rs1) (s.shamt k))
  · exact result_spec_of_eq s rd (hn ▸ ushiftRight_eq_ofNat_div (s.reg rs1) (s.shamt k))
  · exact result_spec_of_eq s rd (hn ▸ sshiftRight_eq_ofInt_div (s.reg rs1) (s.shamt k))

/-! ## Two registers (R142 to R151) -/

/-- Settles O27: addition of words is that of their values modulo 2^32, and so is subtraction. -/
theorem addAndSubtract : Obligations.AddAndSubtract := fun rd rs1 rs2 s =>
  ⟨decodeOfEncodeIsIdentity (.add rd rs1 rs2) rfl, decodeOfEncodeIsIdentity (.sub rd rs1 rs2) rfl,
    result_spec_of_eq s rd (BitVec.add_def _ _), result_spec_of_eq s rd (sub_eq_ofInt_sub _ _)⟩

/-- Settles O28: the shifts as arithmetic, by the low 5 bits of the second source. -/
theorem shiftsByRegister : Obligations.ShiftsByRegister := by
  intro rd rs1 rs2 s
  rw [← shiftAmount_eq_mod (s.reg rs2)]
  exact ⟨decodeOfEncodeIsIdentity (.sll rd rs1 rs2) rfl, decodeOfEncodeIsIdentity (.srl rd rs1 rs2) rfl,
    decodeOfEncodeIsIdentity (.sra rd rs1 rs2) rfl, result_spec_of_eq s rd (shiftLeft_eq_ofNat_mul _ _),
    result_spec_of_eq s rd (ushiftRight_eq_ofNat_div _ _), result_spec_of_eq s rd (sshiftRight_eq_ofInt_div _ _)⟩

/-- Settles O29: the flags are the comparisons of the signed and of the unsigned values. -/
theorem setLessThan : Obligations.SetLessThan := fun rd rs1 rs2 s =>
  ⟨decodeOfEncodeIsIdentity (.slt rd rs1 rs2) rfl, decodeOfEncodeIsIdentity (.sltu rd rs1 rs2) rfl,
    result_spec_of_eq s rd (flagWord_ltS _ _), result_spec_of_eq s rd (flagWord_ltU _ _)⟩

/-- Settles O30: the encoder lays out the three words, and each instruction ends with its result. -/
theorem logicOfRegisters : Obligations.LogicOfRegisters := fun rd rs1 rs2 s =>
  ⟨decodeOfEncodeIsIdentity (.xor rd rs1 rs2) rfl, decodeOfEncodeIsIdentity (.or rd rs1 rs2) rfl,
    decodeOfEncodeIsIdentity (.and rd rs1 rs2) rfl, result_spec s rd _, result_spec s rd _, result_spec s rd _⟩

end Sys2Proof.Machine
end

section
/-! Products: the words of the exact product are words of the 64-bit product of the extended operands, and the statement
about the four multiplications (`41_muldiv.md` R170 to R174). -/

namespace Sys2Proof.Machine

/-! ## Words of the exact product (R170) -/

/-- Cutting an exact product to 64 bits loses nothing of its high word. -/
theorem highWord_eq_extractLsb' (p : Int) : highWord p = (BitVec.ofInt 64 p).extractLsb' 32 32 := by
  apply BitVec.eq_of_toNat_eq
  rw [highWord, BitVec.toNat_ofInt, BitVec.extractLsb'_toNat, BitVec.toNat_ofInt, Int.shiftRight_eq_div_pow,
    Nat.shiftRight_eq_div_pow]
  omega

theorem extractLsb'_zero_ofInt (p : Int) : (BitVec.ofInt 64 p).extractLsb' 0 32 = BitVec.ofInt 32 p := by
  apply BitVec.eq_of_toNat_eq
  rw [BitVec.extractLsb'_toNat, BitVec.toNat_ofInt, BitVec.toNat_ofInt, Nat.shiftRight_zero]
  omega

/-- Zero extension keeps the unsigned value, as sign extension by definition keeps the signed one. -/
theorem ofInt_toNat_eq_setWidth (a : Word) : BitVec.ofInt 64 (a.toNat : Int) = a.setWidth 64 :=
  BitVec.ofNat_toNat 64 a

theorem ofInt_toInt_mul_toInt (a b : Word) :
    BitVec.ofInt 64 (a.toInt * b.toInt) = a.signExtend 64 * b.signExtend 64 :=
  BitVec.ofInt_mul _ _

theorem ofInt_toInt_mul_toNat (a b : Word) :
    BitVec.ofInt 64 (a.toInt * (b.toNat : Int)) = a.signExtend 64 * b.setWidth 64 := by
  rw [BitVec.ofInt_mul, ofInt_toNat_eq_setWidth, BitVec.signExtend]

theorem ofInt_toNat_mul_toNat (a b : Word) :
    BitVec.ofInt 64 ((a.toNat : Int) * (b.toNat : Int)) = a.setWidth 64 * b.setWidth 64 := by
  rw [BitVec.ofInt_mul, ofInt_toNat_eq_setWidth, ofInt_toNat_eq_setWidth]

/-! ## The low word, for both readings of the operands (R171) -/

theorem ofNat_mul_eq_extractLsb'_setWidth (a b : Word) :
    BitVec.ofNat 32 (a.toNat * b.toNat) = (a.setWidth 64 * b.setWidth 64).extractLsb' 0 32 := by
  rw [← ofInt_toNat_mul_toNat, extractLsb'_zero_ofInt, ← Int.natCast_mul, BitVec.ofInt_natCast]

theorem ofNat_mul_eq_extractLsb'_signExtend (a b : Word) :
    BitVec.ofNat 32 (a.toNat * b.toNat) = (a.signExtend 64 * b.signExtend 64).extractLsb' 0 32 := by
  rw [← ofInt_toInt_mul_toInt, extractLsb'_zero_ofInt, BitVec.ofInt_mul, BitVec.ofInt_toInt, BitVec.ofInt_toInt,
    BitVec.ofNat_mul, BitVec.ofNat_toNat, BitVec.ofNat_toNat, BitVec.setWidth_eq, BitVec.setWidth_eq]

/-! ## The statement -/

/-- Settles O31: each result is a word of the exact product, and so of the product cut to 64 bits. -/
theorem multiplications : Obligations.Multiplications := by
  intro rd rs1 rs2 s
  refine ⟨decodeOfEncodeIsIdentity (.mul rd rs1 rs2) rfl, decodeOfEncodeIsIdentity (.mulh rd rs1 rs2) rfl,
    decodeOfEncodeIsIdentity (.mulhsu rd rs1 rs2) rfl, decodeOfEncodeIsIdentity (.mulhu rd rs1 rs2) rfl,
    ?_, ?_, ?_, ?_⟩
  · obtain ⟨t, ht, hwrites⟩ := result_spec s rd (BitVec.ofNat 32 ((s.reg rs1).toNat * (s.reg rs2).toNat))
    exact ⟨t, ht, ofNat_mul_eq_extractLsb'_setWidth (s.reg rs1) _ ▸ hwrites,
      ofNat_mul_eq_extractLsb'_signExtend (s.reg rs1) _ ▸ hwrites⟩
  · rw [← ofInt_toInt_mul_toInt]
    exact result_spec_of_eq s rd (highWord_eq_extractLsb' _)
  · rw [← ofInt_toInt_mul_toNat]
    exact result_spec_of_eq s rd (highWord_eq_extractLsb' _)
  · rw [← ofInt_toNat_mul_toNat]
    exact result_spec_of_eq s rd (highWord_eq_extractLsb' _)

end Sys2Proof.Machine
end

section
/-! Quotients and remainders: the values of the four instructions, when each is fatal, and the statements about them
(`41_muldiv.md` R170, R175 to R179). -/

namespace Sys2Proof.Machine

/-! ## The signed quotient and remainder (R175, R177) -/

section
variable {a b : Word}

theorem signedOverflow_eq_true : signedOverflow a b = true ↔ a = 0x80000000#32 ∧ b = 0xFFFFFFFF#32 := by
  rw [signedOverflow, Bool.and_eq_true, beq_iff_eq, beq_iff_eq]

/-- With 32 bits kept, the quotient of the overflow corner, 2^31, is the word that R170 gives for it. -/
theorem divValue_of_ne_zero (hb : b ≠ 0#32) : divValue a b = BitVec.ofInt 32 (a.toInt.tdiv b.toInt) := by
  rw [divValue, if_neg hb]
  split_ifs with hover
  · obtain ⟨rfl, rfl⟩ := signedOverflow_eq_true.mp hover
    rfl
  · rfl

/-- The corners of REM are no exception to the remainder of a division toward zero. -/
theorem remValue_eq_srem (a b : Word) : remValue a b = a.srem b := by
  rw [remValue]
  split_ifs with hb hover
  · rw [hb, BitVec.srem_zero]
  · obtain ⟨rfl, rfl⟩ := signedOverflow_eq_true.mp hover
    rfl
  · rw [← Int.tmod_def, ← BitVec.toInt_srem, BitVec.ofInt_toInt]

theorem toInt_divValue (hb : b ≠ 0#32) (hover : ¬ (a = 0x80000000#32 ∧ b = 0xFFFFFFFF#32)) :
    (divValue a b).toInt = a.toInt.tdiv b.toInt := by
  have hquot : (a.sdiv b).toInt = a.toInt.tdiv b.toInt :=
    BitVec.toInt_sdiv_of_ne_or_ne a b (not_and_or.mp hover)
  rw [divValue_of_ne_zero hb, ← hquot, BitVec.ofInt_toInt]

theorem toInt_remValue (a b : Word) : (remValue a b).toInt = a.toInt.tmod b.toInt := by
  rw [remValue_eq_srem, BitVec.toInt_srem]

theorem divValue_mul_add_remValue (a b : Word) : divValue a b * b + remValue a b = a := by
  by_cases hb : b = 0#32
  · rw [hb, BitVec.mul_zero, BitVec.zero_add, remValue, if_pos rfl]
  · calc divValue a b * b + remValue a b
        = BitVec.ofInt 32 (a.toInt.tdiv b.toInt * b.toInt + a.toInt.tmod b.toInt) := by
          rw [divValue_of_ne_zero hb, BitVec.ofInt_add, BitVec.ofInt_mul, BitVec.ofInt_toInt, ← toInt_remValue,
            BitVec.ofInt_toInt]
      _ = a := by rw [Int.tdiv_mul_add_tmod, BitVec.ofInt_toInt]

theorem toInt_remValue_neg_iff (h : remValue a b ≠ 0#32) : (remValue a b).toInt < 0 ↔ a.toInt < 0 := by
  rw [remValue_eq_srem] at h ⊢
  have hsign : (a.srem b).msb = a.msb := by simp [BitVec.msb_srem, h]
  rwa [BitVec.msb_eq_toInt, BitVec.msb_eq_toInt, decide_eq_decide] at hsign

/-! ## The unsigned quotient and remainder (R176, R178) -/

theorem divuValue_of_ne_zero (hb : b ≠ 0#32) : divuValue a b = a / b := by
  rw [divuValue, if_neg hb, BitVec.udiv_def]

/-- The zero divisor of REMU is no exception: a remainder modulo 0 is the dividend. -/
theorem remuValue_eq_umod (a b : Word) : remuValue a b = a % b := by
  rw [remuValue]
  split_ifs with hb
  · rw [hb, BitVec.umod_zero]
  · rw [← BitVec.toNat_umod, BitVec.ofNat_toNat, BitVec.setWidth_eq]

theorem divuValue_mul_add_remuValue (a b : Word) : divuValue a b * b + remuValue a b = a := by
  by_cases hb : b = 0#32
  · rw [hb, BitVec.mul_zero, BitVec.zero_add, remuValue, if_pos rfl]
  · rw [divuValue_of_ne_zero hb, remuValue_eq_umod]
    apply BitVec.eq_of_toNat_eq
    rw [BitVec.toNat_add, BitVec.toNat_mul, BitVec.toNat_udiv, BitVec.toNat_umod, Nat.mod_add_mod, Nat.div_add_mod',
      Nat.mod_eq_of_lt a.isLt]

end

/-! ## When a division is fatal (R179) -/

section
variable {s : State} {corner : Bool} {P : Prop}

/-- Away from `P`, or with DIV_CORNER = riscv, a division whose corners are `P` writes its value. -/
theorem divide_writes (hcorner : corner = true ↔ P) (h : ¬ (s.cfg.divCorner = .fault ∧ P)) (rd : RegIdx)
    (v : Word) :
    ∃ t, s.divide rd corner v = .next t ∧ OnlyWrites s t rd v (s.pc + 4#32) := by
  rcases divide_cases s rd corner v with ⟨hfault, hc, -⟩ | ⟨-, heq⟩
  · exact absurd ⟨hfault, hcorner.mp hc⟩ h
  · exact heq ▸ result_spec s rd v

/-- With DIV_CORNER = fault, a division whose corners are `P` aborts where `P` holds. -/
theorem divide_aborts (hcorner : corner = true ↔ P) (h : s.cfg.divCorner = .fault ∧ P) (rd : RegIdx) (v : Word) :
    ∃ t, s.divide rd corner v = .next t ∧ OnlyAborts s t (.divideCorner s.pc) := by
  rcases divide_cases s rd corner v with ⟨-, -, heq⟩ | ⟨hn, -⟩
  · exact heq ▸ fatal_spec s _
  · exact absurd ⟨h.1, hcorner.mpr h.2⟩ hn

theorem divide_riscv_reg (h : s.cfg.divCorner = .riscv) {rd : RegIdx} (hrd : rd ≠ 0#5) (corner : Bool) (v : Word) :
    ∃ t, s.divide rd corner v = .next t ∧ t.reg rd = v := by
  have hnofault : ¬ (s.cfg.divCorner = .fault ∧ corner = true) := fun hf => absurd (h.symm.trans hf.1) (by decide)
  obtain ⟨t, ht, hwrites, -⟩ := divide_writes Iff.rfl hnofault rd v
  exact ⟨t, ht, hwrites.reg_dest hrd⟩

end

theorem signedCorner_eq_true {a b : Word} :
    (b == 0#32 || signedOverflow a b) = true ↔ b = 0#32 ∨ (a = 0x80000000#32 ∧ b = 0xFFFFFFFF#32) := by
  rw [Bool.or_eq_true, beq_iff_eq, signedOverflow_eq_true]

/-! ## The statements -/

/-- Settles O32: both instructions have the corners of `signedCorner_eq_true`, and away from them the values are
those of division toward zero. -/
theorem signedDivision : Obligations.SignedDivision := by
  intro rd rs1 rs2 s
  refine ⟨decodeOfEncodeIsIdentity (.div rd rs1 rs2) rfl, decodeOfEncodeIsIdentity (.rem rd rs1 rs2) rfl,
    fun h => ⟨?_, ?_⟩, fun h => ⟨?_, ?_⟩⟩
  · obtain ⟨t, ht, hwrites⟩ := divide_writes signedCorner_eq_true h rd (divValue (s.reg rs1) (s.reg rs2))
    refine ⟨t, _, ht, hwrites, fun hzero => if_pos hzero, ?_, fun ⟨hzero, hover⟩ => toInt_divValue hzero hover⟩
    rintro ⟨ha, hb⟩
    rw [ha, hb]
    rfl
  · obtain ⟨t, ht, hwrites⟩ := divide_writes signedCorner_eq_true h rd (remValue (s.reg rs1) (s.reg rs2))
    refine ⟨t, _, ht, hwrites, fun hzero => if_pos hzero, ?_, fun _ => toInt_remValue _ _⟩
    rintro ⟨ha, hb⟩
    rw [ha, hb]
    rfl
  · exact divide_aborts signedCorner_eq_true h rd _
  · exact divide_aborts signedCorner_eq_true h rd _

/-- Settles O33: the only corner is the zero divisor, and away from it the values are those of `Nat` division. -/
theorem unsignedDivision : Obligations.UnsignedDivision := by
  intro rd rs1 rs2 s
  refine ⟨decodeOfEncodeIsIdentity (.divu rd rs1 rs2) rfl, decodeOfEncodeIsIdentity (.remu rd rs1 rs2) rfl,
    fun h => ⟨?_, ?_⟩, fun h => ⟨?_, ?_⟩⟩
  · obtain ⟨t, ht, hwrites⟩ := divide_writes beq_iff_eq h rd (divuValue (s.reg rs1) (s.reg rs2))
    refine ⟨t, _, ht, hwrites, fun hzero => if_pos hzero, fun hzero => ?_⟩
    rw [divuValue_of_ne_zero hzero, BitVec.toNat_udiv]
  · obtain ⟨t, ht, hwrites⟩ := divide_writes beq_iff_eq h rd (remuValue (s.reg rs1) (s.reg rs2))
    refine ⟨t, _, ht, hwrites, fun hzero => if_pos hzero, fun _ => ?_⟩
    rw [remuValue_eq_umod, BitVec.toNat_umod]
  · exact divide_aborts beq_iff_eq h rd _
  · exact divide_aborts beq_iff_eq h rd _

/-- Settles O34: at a zero divisor the remainder alone is the dividend; else division toward zero rebuilds it. -/
theorem quotientAndRemainderRebuildTheDividend : Obligations.QuotientAndRemainderRebuildTheDividend := by
  intro rd rs1 rs2 s hriscv hrd
  constructor
  · obtain ⟨t, ht, hq⟩ := divide_riscv_reg hriscv hrd _ (divValue (s.reg rs1) (s.reg rs2))
    obtain ⟨u, hu, hr⟩ := divide_riscv_reg hriscv hrd _ (remValue (s.reg rs1) (s.reg rs2))
    refine ⟨t, u, ht, hu, ?_, ?_⟩
    · rw [hq, hr, divValue_mul_add_remValue]
    · rw [hr]
      exact toInt_remValue_neg_iff
  · obtain ⟨t, ht, hq⟩ := divide_riscv_reg hriscv hrd _ (divuValue (s.reg rs1) (s.reg rs2))
    obtain ⟨u, hu, hr⟩ := divide_riscv_reg hriscv hrd _ (remuValue (s.reg rs1) (s.reg rs2))
    exact ⟨t, u, ht, hu, by rw [hq, hr, divuValue_mul_add_remuValue]⟩

end Sys2Proof.Machine
end

section
/-! The loads and the stores in `pmem`, and what they do when the access is not admitted: the words the loads write, one
lemma per case of the bounds check, and the statements (`20_memory.md` R63 to R65; `42_load_store.md` R190 to R198). -/

namespace Sys2Proof.Machine

/-! ## The words of the loads (R64, R191 to R195) -/

/-- A two-byte read as one halfword, extended by zeros. -/
theorem Memory.read_two_eq_setWidth (m : Memory) (a : Nat) :
    m.read a 2 = (m.byteAt (a + 1) ++ m.byteAt a : BitVec 16).setWidth 32 :=
  (Memory.read_two m a).trans BitVec.setWidth_append_eq_shiftLeft_setWidth_or.symm

theorem sext8_read_one (m : Memory) (a : Nat) : sext8 (m.read a 1) = (m.byteAt a).signExtend 32 := by
  rw [sext8, Memory.read_one, BitVec.extractLsb'_setWidth_of_le (by decide), BitVec.extractLsb'_eq_self]

theorem sext16_read_two (m : Memory) (a : Nat) :
    sext16 (m.read a 2) = (m.byteAt (a + 1) ++ m.byteAt a : BitVec 16).signExtend 32 := by
  rw [sext16, Memory.read_two_eq_setWidth, BitVec.extractLsb'_setWidth_of_le (by decide), BitVec.extractLsb'_eq_self]

/-! ## One access, by the case of its bounds check (R63, R200) -/

section
variable {s : State} {rs1 : RegIdx} {imm : BitVec 12} {n : Nat}

/-- A load in `pmem` writes the value `ext` makes of the bytes read. -/
theorem load_pmem_spec {ext : Word → Word} {v : Word} (rd : RegIdx) (h : InPmem s (s.ea rs1 imm) n)
    (hv : ext (s.mem.read (s.ea rs1 imm).toNat n) = v) :
    ∃ t, s.load rd rs1 imm n ext = .next t ∧ OnlyWrites s t rd v (s.pc + 4#32) := by
  rw [load_pmem h, hv]
  exact result_spec s rd v

theorem load_outOfBounds_spec (rd : RegIdx) (ext : Word → Word) (h : OutOfBounds s (s.ea rs1 imm) n) :
    ∃ t, s.load rd rs1 imm n ext = .next t ∧ OnlyAborts s t (.outOfBounds (s.ea rs1 imm) n s.pc) := by
  rw [load_outOfBounds h]
  exact fatal_spec s _

theorem store_outOfBounds_spec (rs2 : RegIdx) (h : OutOfBounds s (s.ea rs1 imm) n) :
    ∃ t, s.store rs2 rs1 imm n = .next t ∧ OnlyAborts s t (.outOfBounds (s.ea rs1 imm) n s.pc) := by
  rw [store_outOfBounds h]
  exact fatal_spec s _

/-- A store in `pmem`, byte by byte: the `n` bytes at the address are those of `x[rs2]`, the others are as before. -/
theorem store_pmem_bytes (rs2 : RegIdx) (h : InPmem s (s.ea rs1 imm) n) :
    ∃ t, s.store rs2 rs1 imm n = .next t ∧
      (∀ a, t.byteAt a = if (s.ea rs1 imm).toNat ≤ a ∧ a < (s.ea rs1 imm).toNat + n
        then (s.reg rs2).extractLsb' (8 * (a - (s.ea rs1 imm).toNat)) 8 else s.byteAt a) ∧
      KeepsRegs s t ∧ t.pc = s.pc + 4#32 ∧ t.csrs = s.csrs ∧ KeepsRest s t := by
  obtain ⟨t, ht, hmem, hkeeps⟩ := store_pmem_spec rs2 h
  refine ⟨t, ht, fun a => ?_, hkeeps⟩
  rw [State.byteAt, hmem, Memory.byteAt_write]
  rfl

end

/-! ## The statements -/

/-- Settles O35: the one byte read is extended by its sign or, as it is read, by zeros. -/
theorem byteLoads : Obligations.ByteLoads := fun rd rs1 imm _ =>
  ⟨decodeOfEncodeIsIdentity (.lb rd rs1 imm) rfl, decodeOfEncodeIsIdentity (.lbu rd rs1 imm) rfl,
    fun h => ⟨load_pmem_spec rd h (sext8_read_one _ _), load_pmem_spec rd h (Memory.read_one _ _)⟩,
    fun h => ⟨load_outOfBounds_spec rd _ h, load_outOfBounds_spec rd _ h⟩⟩

/-- Settles O36: the two bytes read are one halfword, extended by its sign or, as it is read, by zeros. -/
theorem halfwordLoads : Obligations.HalfwordLoads := fun rd rs1 imm _ =>
  ⟨decodeOfEncodeIsIdentity (.lh rd rs1 imm) rfl, decodeOfEncodeIsIdentity (.lhu rd rs1 imm) rfl,
    fun h => ⟨load_pmem_spec rd h (sext16_read_two _ _), load_pmem_spec rd h (Memory.read_two_eq_setWidth _ _)⟩,
    fun h => ⟨load_outOfBounds_spec rd _ h, load_outOfBounds_spec rd _ h⟩⟩

/-- Settles O37: the four bytes read are the word. -/
theorem wordLoads : Obligations.WordLoads := fun rd rs1 imm _ =>
  ⟨decodeOfEncodeIsIdentity (.lw rd rs1 imm) rfl, fun h => load_pmem_spec rd h (Memory.read_four _ _),
    fun h => load_outOfBounds_spec rd _ h⟩

/-- Settles O39: the encoder lays out the three words, and the two cases of the bounds check serve every width. -/
theorem stores : Obligations.Stores := fun rs2 rs1 imm _ =>
  ⟨decodeOfEncodeIsIdentity (.sb rs2 rs1 imm) rfl, decodeOfEncodeIsIdentity (.sh rs2 rs1 imm) rfl,
    decodeOfEncodeIsIdentity (.sw rs2 rs1 imm) rfl, ⟨store_pmem_bytes rs2, store_outOfBounds_spec rs2⟩,
    ⟨store_pmem_bytes rs2, store_outOfBounds_spec rs2⟩, ⟨store_pmem_bytes rs2, store_outOfBounds_spec rs2⟩⟩

end Sys2Proof.Machine
end

section
/-! Control transfer: the offsets that a word holds without their bit 0, the comparisons that the branches decide, the
target of JALR, and the statements about branches and jumps (`30_encoding.md` R91, R100, R102;
`43_control_transfer.md` R210 to R222). -/

namespace Sys2Proof

/-! ## Offsets with an implicit zero bit (R100, R102) -/

theorem extractLsb'_succ_append_zero {n : Nat} (h : BitVec n) (lo len : Nat) :
    (h ++ 0#1).extractLsb' (lo + 1) len = h.extractLsb' lo len :=
  BitVec.extractLsb'_append_eq_of_le (Nat.le_add_left 1 lo)

theorem evenOffset_append_zero {n : Nat} (h : BitVec n) : evenOffset (h ++ 0#1) = true := by
  simp [evenOffset, BitVec.getElem_append]

/-- Format B, with the offset given above its bit 0. -/
theorem encodeB_append_zero (h : BitVec 12) (rs2 rs1 : RegIdx) (f3 : BitVec 3) (op : BitVec 7) :
    encodeB (h ++ 0#1) rs2 rs1 f3 op = h.extractLsb' 11 1 ++ h.extractLsb' 4 6 ++ rs2 ++ rs1 ++ f3 ++
      h.extractLsb' 0 4 ++ h.extractLsb' 10 1 ++ op := by
  rw [encodeB, extractLsb'_succ_append_zero h 11, extractLsb'_succ_append_zero h 4, extractLsb'_succ_append_zero h 0,
    extractLsb'_succ_append_zero h 10]

/-- Format J, with the offset given above its bit 0. -/
theorem encodeJ_append_zero (h : BitVec 20) (rd : RegIdx) (op : BitVec 7) :
    encodeJ (h ++ 0#1) rd op = h.extractLsb' 19 1 ++ h.extractLsb' 0 10 ++ h.extractLsb' 10 1 ++
      h.extractLsb' 11 8 ++ rd ++ op := by
  rw [encodeJ, extractLsb'_succ_append_zero h 19, extractLsb'_succ_append_zero h 0, extractLsb'_succ_append_zero h 10,
    extractLsb'_succ_append_zero h 11]

/-! ## JALR has one `funct3` (R218) -/

theorem opcodeOf_encodeI (imm : BitVec 12) (rs1 : RegIdx) (f3 : BitVec 3) (rd : RegIdx) (op : BitVec 7) :
    opcodeOf (encodeI imm rs1 f3 rd op) = op :=
  BitVec.extractLsb'_append_eq_right

theorem funct3Of_encodeI (imm : BitVec 12) (rs1 : RegIdx) (f3 : BitVec 3) (rd : RegIdx) (op : BitVec 7) :
    funct3Of (encodeI imm rs1 f3 rd op) = f3 := by
  apply BitVec.eq_of_getLsbD_eq
  intro i hi
  rw [encodeI_place]
  interval_cases i <;> simp [place, funct3Of]

/-- The row of JALR, the only one of its opcode, fixes `funct3` as 000. -/
theorem jalr_row_funct3 : ∀ r ∈ instrRows, opcodeOf r.fixed = 0b1100111#7 →
    funct3Of r.mask = BitVec.allOnes 3 ∧ funct3Of r.fixed = 0b000#3 := by decide

theorem decodeWord_jalr_other_funct3 {f3 : BitVec 3} (hf3 : f3 ≠ 0b000#3) (imm : BitVec 12) (rs1 rd : RegIdx) :
    decodeWord (encodeI imm rs1 f3 rd 0b1100111#7) = .inv (encodeI imm rs1 f3 rd 0b1100111#7) := by
  rcases hits_or_unmatched (encodeI imm rs1 f3 rd 0b1100111#7) with ⟨r, hr, hhit⟩ | hun
  · have hop : opcodeOf r.fixed = 0b1100111#7 := (opcodeOf_of_hits hr hhit).symm.trans (opcodeOf_encodeI ..)
    obtain ⟨hmask, hzero⟩ := jalr_row_funct3 r hr hop
    have hrow : funct3Of r.fixed = f3 := (extractLsb'_of_hits hhit hmask).symm.trans (funct3Of_encodeI ..)
    exact absurd (hrow.symm.trans hzero) hf3
  · exact decodeWord_of_unmatched hun

namespace Machine

/-! ## Branches (R210 to R216) -/

theorem ltS_eq_true {a b : Word} : ltS a b = true ↔ a.toInt < b.toInt := decide_eq_true_iff

theorem ltU_eq_true {a b : Word} : ltU a b = true ↔ a.toNat < b.toNat := decide_eq_true_iff

theorem not_ltS_eq_true {a b : Word} : (!ltS a b) = true ↔ b.toInt ≤ a.toInt := by
  rw [Bool.not_eq_true', ← Bool.not_eq_true, ltS_eq_true, not_lt]

theorem not_ltU_eq_true {a b : Word} : (!ltU a b) = true ↔ b.toNat ≤ a.toNat := by
  rw [Bool.not_eq_true', ← Bool.not_eq_true, ltU_eq_true, not_lt]

/-- A branch that is taken exactly when `c` holds. -/
theorem branch_spec_of_iff (s : State) {taken : Bool} {c : Prop} (hc : taken = true ↔ c) (off : BitVec 13) :
    ∃ t, s.branch taken off = .next t ∧ (c → OnlyGoesTo s t (s.pc + off.signExtend 32)) ∧
      (¬ c → OnlyGoesTo s t (s.pc + 4#32)) := by
  obtain ⟨t, ht, hgoes⟩ := branch_spec s taken off
  refine ⟨t, ht, fun h => ?_, fun h => ?_⟩
  · rwa [if_pos (hc.mpr h)] at hgoes
  · rwa [if_neg (mt hc.mp h)] at hgoes

/-- Settles O43: the encoder lays out the six words, and each branch is taken exactly when its comparison holds. -/
theorem branches : Obligations.Branches := by
  intro rs1 rs2 h s off word a b goes
  have heven : evenOffset off = true := evenOffset_append_zero h
  have hword (f3 : BitVec 3) : word f3 = encodeB off rs2 rs1 f3 0b1100011#7 := (encodeB_append_zero ..).symm
  simp only [hword]
  exact ⟨decodeOfEncodeIsIdentity (.beq rs1 rs2 off) heven, branch_spec_of_iff s beq_iff_eq off,
    decodeOfEncodeIsIdentity (.bne rs1 rs2 off) heven, branch_spec_of_iff s bne_iff_ne off,
    decodeOfEncodeIsIdentity (.blt rs1 rs2 off) heven, branch_spec_of_iff s ltS_eq_true off,
    decodeOfEncodeIsIdentity (.bge rs1 rs2 off) heven, branch_spec_of_iff s not_ltS_eq_true off,
    decodeOfEncodeIsIdentity (.bltu rs1 rs2 off) heven, branch_spec_of_iff s ltU_eq_true off,
    decodeOfEncodeIsIdentity (.bgeu rs1 rs2 off) heven, branch_spec_of_iff s not_ltU_eq_true off⟩

/-! ## Jumps (R217, R218, R222) -/

theorem and_not_one_eq_append_zero (v : Word) : v &&& ~~~1#32 = v.extractLsb' 1 31 ++ 0#1 := by
  apply BitVec.eq_of_getLsbD_eq
  intro i hi
  rw [BitVec.getLsbD_append]
  interval_cases i <;> simp

/-- Every JALR shows one event. -/
theorem traceJalr_eq_singleton (c : Config) (rd rs1 : RegIdx) (pc target : Word) :
    traceJalr c rd rs1 pc target = [if rd = 0#5 ∧ rs1 = c.raReg then .ret pc else .call pc target] :=
  (apply_ite (fun e => [e]) _ _ _).symm

/-- Settles O44: the encoder lays out the two words, JALR is the only row of its opcode, and a jump links, goes to its
target and shows its trace. -/
theorem jumpsLinkAndTrace : Obligations.JumpsLinkAndTrace := by
  intro rd rs1 h imm s off near far
  have hjal : decodeWord (encodeJ off rd 0b1101111#7) = .jal rd off :=
    decodeOfEncodeIsIdentity (.jal rd off) (evenOffset_append_zero h)
  have hfar : (s.reg rs1 + imm12 imm) &&& ~~~1#32 = far := and_not_one_eq_append_zero _
  refine ⟨encodeJ_append_zero h rd _ ▸ hjal, decodeOfEncodeIsIdentity (.jalr rd rs1 imm) rfl,
    fun f3 hf3 => decodeWord_jalr_other_funct3 hf3 imm rs1 rd, ?_, ?_⟩
  · obtain ⟨t, ht, hlink, hpc, hcsrs, hmem, hrun, hcfg, hdraws, hevents⟩ :=
      jump_spec s rd near (traceJal rd s.pc near)
    exact ⟨t, ht, hlink, hpc, hevents, hcsrs, hmem, hrun, hcfg, hdraws⟩
  · obtain ⟨t, ht, hlink, hpc, hcsrs, hmem, hrun, hcfg, hdraws, hevents⟩ :=
      jump_spec s rd far (traceJalr s.cfg rd rs1 s.pc far)
    rw [traceJalr_eq_singleton] at hevents
    rw [← hfar] at ht
    exact ⟨t, ht, hlink, hpc, hevents, hcsrs, hmem, hrun, hcfg, hdraws⟩

end Machine
end Sys2Proof
end

section
/-! System and CSR instructions: the words of the SYSTEM opcode and of the catch-all row, the trap boundary, and CSRs
written by address (`10_state.md` R38 to R44; `44_system_csr.md` R230 to R245; `60_exceptions.md` R254, R255). -/

namespace Sys2Proof

/-! ## Words that decode to `inv` (R236, R245) -/

theorem unmatched_iff (w : Word) : unmatched w = true ↔ ∀ r ∈ instrRows, r.hits w = false := by
  simp only [unmatched, List.all_eq_true, Bool.not_eq_true']

/-- What a word decodes to is well-formed, so an `inv` carries a word that no row matches. -/
theorem decodeWord_eq_inv_iff (w : Word) : decodeWord w = .inv w ↔ unmatched w = true := by
  refine ⟨fun hinv => ?_, decodeWord_of_unmatched⟩
  obtain ⟨hwf, -⟩ := encodeOfDecodeIsIdentity w
  rwa [hinv] at hwf

/-- The words R245 names: all zeros, all ones, FENCE, WFI, SRET, and an EBREAK with `rd` 8. -/
theorem named_words_unmatched : ∀ w ∈ [0x00000000#32, 0xFFFFFFFF#32, 0x0FF0000F#32, 0x10500073#32, 0x10200073#32,
    0x00100473#32], unmatched w = true := List.all_eq_true.mp (by decide)

/-- The rows of the SYSTEM opcode fix `funct3` as 000, 001 or 010. -/
theorem system_row_funct3 : ∀ r ∈ instrRows, opcodeOf r.fixed = 0b1110011#7 → funct3Of r.mask = BitVec.allOnes 3 ∧
    (funct3Of r.fixed = 0b000#3 ∨ funct3Of r.fixed = 0b001#3 ∨ funct3Of r.fixed = 0b010#3) := by decide

theorem decodeWord_system_other_funct3 {f3 : BitVec 3} (hpriv : f3 ≠ 0b000#3) (hrw : f3 ≠ 0b001#3)
    (hrs : f3 ≠ 0b010#3) (csr : CsrAddr) (rs1 rd : RegIdx) :
    decodeWord (encodeI csr rs1 f3 rd 0b1110011#7) = .inv (encodeI csr rs1 f3 rd 0b1110011#7) := by
  rcases hits_or_unmatched (encodeI csr rs1 f3 rd 0b1110011#7) with ⟨r, hr, hhit⟩ | hun
  · have hop : opcodeOf r.fixed = 0b1110011#7 := (opcodeOf_of_hits hr hhit).symm.trans (opcodeOf_encodeI ..)
    obtain ⟨hmask, hvalid⟩ := system_row_funct3 r hr hop
    have hrow : funct3Of r.fixed = f3 := (extractLsb'_of_hits hhit hmask).symm.trans (funct3Of_encodeI ..)
    rw [hrow] at hvalid
    rcases hvalid with h | h | h
    · exact absurd h hpriv
    · exact absurd h hrw
    · exact absurd h hrs
  · exact decodeWord_of_unmatched hun

namespace Machine

/-- `inv` aborts with its address and its word, in any state. -/
theorem exec_inv_spec (w : Word) (s : State) :
    ∃ t, exec (.inv w) s = .next t ∧ OnlyAborts s t (.invalidInstruction s.pc w) :=
  fatal_spec s _

/-- Settles O7: no SYSTEM row has the `funct3`, so the word decodes to `inv`, which aborts. -/
theorem otherCsrFormsAreFatal : Obligations.OtherCsrFormsAreFatal := by
  intro csr rs1 rd f3 s hf3
  have hother : f3 ≠ 0b000#3 ∧ f3 ≠ 0b001#3 ∧ f3 ≠ 0b010#3 := by
    rcases hf3 with rfl | rfl | rfl | rfl <;> decide
  obtain ⟨hpriv, hrw, hrs⟩ := hother
  have hinv := decodeWord_system_other_funct3 hpriv hrw hrs csr rs1 rd
  rw [encodeI] at hinv
  rw [hinv]
  exact exec_inv_spec _ s

/-- Settles O50: a word is carried by `inv` exactly when no row matches it, and no row matches the six named words. -/
theorem unmatchedWordsAbort : Obligations.UnmatchedWordsAbort :=
  ⟨rfl, rfl, fun w => (unmatched_iff w).symm.trans (decodeWord_eq_inv_iff w).symm,
    fun w hw => decodeWord_of_unmatched (named_words_unmatched w hw), exec_inv_spec⟩

/-! ## ECALL, EBREAK and MRET (R230 to R232) -/

theorem takeTrap_external {s : State} (h : s.cfg.trapHandler = .external) (no epc : Word) :
    s.takeTrap no epc = ({ s with csrs := (Config.externalHandler no epc s.regs s.csrs s.mem).1 },
      (Config.externalHandler no epc s.regs s.csrs s.mem).2) := by
  simp [State.takeTrap, h]

/-- ECALL, given what the handler answers: the CSRs and the pc are the answer, and nothing else changes. -/
theorem ecall_spec {s : State} {c : Csrs} {d : Word}
    (h : s.takeTrap (s.reg s.cfg.syscallNoReg) s.pc = ({ s with csrs := c }, d)) :
    ∃ t, exec .ecall s = .next t ∧ (t.csrs, t.pc) = (c, d) ∧ KeepsRegs s t ∧ KeepsMem s t ∧ KeepsRest s t := by
  obtain ⟨t, ht, hregs, hpc, hcsrs, hmem, hrest⟩ := finish_spec { s with csrs := c } d
  refine ⟨t, ?_, Prod.ext hcsrs hpc, hregs, hmem, hrest⟩
  rw [exec, execEcall, h]
  exact ht

/-- Settles O45: one case per handler, each with the answer it gives. -/
theorem ecallCallsTheTrapHandler : Obligations.EcallCallsTheTrapHandler := by
  refine ⟨decodeOfEncodeIsIdentity .ecall rfl, fun s => ?_⟩
  cases hhandler : s.cfg.trapHandler with
  | reference => exact ecall_spec (takeTrap_reference hhandler _ _)
  | external => exact ecall_spec (takeTrap_external hhandler _ _)

theorem step_of_ended {s : State} {haltPc haltRet : Word} (h : s.run = .ended haltPc haltRet) :
    step s = .fault (.ended haltPc haltRet) := by
  rw [step, h]
  rfl

/-- Settles O46: the end of the step finishes in the ended state, from which no step goes. -/
theorem ebreakEndsTheRun : Obligations.EbreakEndsTheRun := by
  refine ⟨decodeOfEncodeIsIdentity .ebreak rfl, fun s => ?_⟩
  obtain ⟨t, ht, hregs, hpc, hcsrs, hmem, hrun, hcfg, hdraws, hevents⟩ :=
    finish_spec { s with run := .ended s.pc (s.reg s.cfg.haltRetReg) } s.snpc
  exact ⟨t, ht, hrun, hpc, hregs, hcsrs, hmem, hcfg, hdraws, hevents, step_of_ended hrun⟩

/-- Settles O47: the end of the step goes where trap return goes. -/
theorem mretReturnsPastTheSavedPc : Obligations.MretReturnsPastTheSavedPc :=
  ⟨decodeOfEncodeIsIdentity .mret rfl, fun s => finish_spec s s.trapReturn⟩

/-! ## CSRRW and CSRRS (R234, R235) -/

/-- The shared end of the CSR instructions: `x[rd]` gets what the address read before, the addressed CSR gets `v`, and
no other CSR changes. -/
theorem setCsr_result_spec (s : State) (rd : RegIdx) (a : CsrAddr) (v : Word) :
    ∃ t, (s.setCsr a v).result rd (s.csr a) = .next t ∧ WritesReg s t rd (s.csr a) ∧
      t.csrs.mstatus = (if a = 0x300#12 then v else s.csrs.mstatus) ∧
      t.csrs.mtvec = (if a = 0x305#12 then v else s.csrs.mtvec) ∧
      t.csrs.mepc = (if a = 0x341#12 then v else s.csrs.mepc) ∧
      t.csrs.mcause = (if a = 0x342#12 then v else s.csrs.mcause) ∧
      t.pc = s.pc + 4#32 ∧ KeepsMem s t ∧ KeepsRest s t := by
  obtain ⟨t, ht, hreg, hpc, hcsrs, hmem, hrest⟩ := result_spec (s.setCsr a v) rd (s.csr a)
  rw [State.setCsr_csrs, Csrs.write_eq] at hcsrs
  refine ⟨t, ht, hreg, ?_⟩
  rw [hcsrs]
  exact ⟨rfl, rfl, rfl, rfl, hpc, hmem, hrest⟩

/-- Settles O48: the shared end, with `x[rs1]` for the addressed CSR. -/
theorem csrReadAndWrite : Obligations.CsrReadAndWrite := by
  intro rd rs1 a s
  obtain ⟨t, ht, hspec⟩ := setCsr_result_spec s rd a (s.reg rs1)
  exact ⟨decodeOfEncodeIsIdentity (.csrrw rd a rs1) rfl, t, s.csr a, ht, Csrs.read_eq s.csrs a, hspec⟩

/-- Settles O49: the shared end, with the old value ored with `x[rs1]` for the addressed CSR. -/
theorem csrReadAndSet : Obligations.CsrReadAndSet := by
  intro rd rs1 a s
  obtain ⟨t, ht, hspec⟩ := setCsr_result_spec s rd a (s.csr a ||| s.reg rs1)
  exact ⟨decodeOfEncodeIsIdentity (.csrrs rd a rs1) rfl, t, s.csr a, ht, Csrs.read_eq s.csrs a, hspec⟩

end Machine
end Sys2Proof
end

section
/-! Exceptions and the host: a step that ends the run changes nothing else, a trap and its return, the host's reads, and
the host's `step^N` (`60_exceptions.md` R253 to R257, R265, R266). -/

namespace Sys2Proof.Machine

/-! ## Fatal errors (R253) -/

theorem step_of_aborted {s : State} {why : Abort} (h : s.run = .aborted why) : step s = .fault (.aborted why) := by
  rw [step, h]
  rfl

/-- Of the ways an instruction ends, only the fatal error leaves a Running engine Aborted. -/
theorem Ends.onlyAborts {i : Instr} {s t : State} {why : Abort} (h : Ends i s t) (hr : s.run = .running)
    (ht : t.run = .aborted why) : OnlyAborts s t why := by
  cases h with
  | aborts =>
    obtain rfl := Run.aborted.inj ht
    rfl
  | halts => cases ht
  | goesOn heffect | writes heffect => cases (heffect.run_eq.trans hr).symm.trans ht

/-- A step that ends Aborted changes only the run state, after the device read of its fetch if that made one. -/
theorem onlyAborts_of_step {s t : State} {why : Abort} (h : step s = .next t) (ht : t.run = .aborted why) :
    ∃ draws, OnlyAborts { s with draws := draws } t why := by
  rcases step_cases s with ⟨-, _, hf⟩ | ⟨-, -, hf⟩ | ⟨hr, -, he⟩ | ⟨hr, -, he⟩
  · cases hf.symm.trans h
  · obtain rfl := Host.Outcome.next.inj (hf.symm.trans h)
    obtain rfl := Run.aborted.inj ht
    exact ⟨s.draws, rfl⟩
  · exact ⟨s.draws, (ends_of_exec (he.symm.trans h)).onlyAborts hr ht⟩
  · exact ⟨s.draws + 1, (ends_of_exec (he.symm.trans h)).onlyAborts hr ht⟩

/-- Settles O16: only the run state and the count of device reads may change, and an Aborted engine takes no step. -/
theorem fatalStepsChangeNothing : Obligations.FatalStepsChangeNothing := by
  intro s t why h ht
  have hstop : step t = .fault (.aborted why) := step_of_aborted ht
  obtain ⟨draws, rfl⟩ := onlyAborts_of_step h ht
  exact ⟨rfl, rfl, rfl, ⟨rfl, fun _ => rfl⟩, rfl, rfl, hstop⟩

/-! ## A trap and its return (R255 to R257) -/

section
variable {s t u : State}

theorem KeepsRegs.trans (h : KeepsRegs s t) (h' : KeepsRegs t u) : KeepsRegs s u := by
  intro r
  rw [h' r, h r]
  split_ifs <;> rfl

theorem KeepsMem.trans (h : KeepsMem s t) (h' : KeepsMem t u) : KeepsMem s u := by
  obtain ⟨hmem, hbytes⟩ := h
  obtain ⟨hmem', hbytes'⟩ := h'
  exact ⟨hmem'.trans hmem, fun a => (hbytes' a).trans (hbytes a)⟩

theorem KeepsRest.trans (h : KeepsRest s t) (h' : KeepsRest t u) : KeepsRest s u := by
  obtain ⟨hrun, hcfg, hdraws, hevents⟩ := h
  obtain ⟨hrun', hcfg', hdraws', hevents'⟩ := h'
  exact ⟨hrun'.trans hrun, hcfg'.trans hcfg, hdraws'.trans hdraws, hevents'.trans hevents⟩

end

/-- Settles O51: the reference handler saves the address of the ECALL in `mepc`, and MRET goes past it. -/
theorem trapAndReturnResumeAfterTheEcall : Obligations.TrapAndReturnResumeAfterTheEcall := by
  intro s hreference
  obtain ⟨t, ht, hanswer, hregs, hmem, hrest⟩ := ecall_spec (takeTrap_reference hreference _ _)
  obtain ⟨u, hu, hregs', hpc, hcsrs, hmem', hrest'⟩ := finish_spec t t.trapReturn
  have hsaved : t.csrs = { s.csrs with mepc := s.pc, mcause := s.reg s.cfg.syscallNoReg } := congrArg Prod.fst hanswer
  refine ⟨t, u, ht, hu, ?_, hregs.trans hregs', hmem.trans hmem', hrest.trans hrest', hcsrs.trans hsaved⟩
  rw [hpc, State.trapReturn, hsaved]

/-! ## Host reads (R266) -/

theorem hostRead_of_memRead {s s1 : State} {a v : Word} (h : s.memRead a 4 = some (v, s1)) :
    hostRead a s = (some v, s1) := by
  rw [hostRead, h]

theorem hostRead_outOfBounds {s : State} {a : Word} (h : OutOfBounds s a 4) :
    hostRead a s = (none, { s with run := .aborted (.outOfBounds a 4 s.pc) }) := by
  rw [hostRead, memRead_outOfBounds h]

/-- Settles O55: one case of the bounds check each. -/
theorem hostReadsAreBoundsChecked : Obligations.HostReadsAreBoundsChecked := by
  intro s a
  refine ⟨fun hp => ?_, fun hd => ?_, fun ho => ?_⟩
  · rw [hostRead_of_memRead (memRead_pmem hp), Memory.read_four]
    rfl
  · rw [hostRead_of_memRead (memRead_device hd), zextBytes_four]
  · rw [hostRead_outOfBounds ho]
    exact ⟨rfl, rfl⟩

/-! ## The host's `step^N` (R265) -/

theorem hostSteps_succ {s t : State} (hr : s.run = .running) (h : step s = .next t) (n : Nat) :
    hostSteps (n + 1) s = hostSteps n t := by
  simp only [hostSteps, hr, h]

/-- Once the run is over, `step^N` stays where it is. -/
theorem hostSteps_of_stopped {s : State} (hr : s.run ≠ .running) (n : Nat) : hostSteps n s = .next s := by
  cases n with
  | zero => rfl
  | succ n =>
    cases hrun : s.run with
    | running => exact absurd hrun hr
    | ended | aborted => simp only [hostSteps, hrun]

theorem hostSteps_one {s : State} (hr : s.run = .running) : hostSteps 1 s = step s := by
  obtain ⟨t, ht, -⟩ := step_completes hr
  rw [hostSteps_succ hr ht, ht, hostSteps]

/-- `step^m` answers a state, from which `step^n` does the rest of `step^(m+n)`. -/
theorem hostSteps_add (m : Nat) (s : State) :
    ∃ t, hostSteps m s = .next t ∧ ∀ n, hostSteps (m + n) s = hostSteps n t := by
  induction m generalizing s with
  | zero => exact ⟨s, rfl, fun n => by rw [Nat.zero_add]⟩
  | succ m ih =>
    by_cases hr : s.run = .running
    · obtain ⟨s1, hs1, -⟩ := step_completes hr
      obtain ⟨t, ht, hadd⟩ := ih s1
      refine ⟨t, (hostSteps_succ hr hs1 m).trans ht, fun n => ?_⟩
      rw [Nat.add_right_comm, hostSteps_succ hr hs1, hadd]
    · exact ⟨s, hostSteps_of_stopped hr _, fun n => by rw [hostSteps_of_stopped hr, hostSteps_of_stopped hr]⟩

/-- Settles O56: by induction on the number of steps; a Running engine always steps, and another stays. -/
theorem hostStepsCompose : Obligations.HostStepsCompose := by
  intro m n s
  obtain ⟨t, ht, hadd⟩ := hostSteps_add m s
  exact ⟨t, ht, hadd n, hostSteps_one⟩

/-- Settles O10: `step` faults outside Running, and `step^N` takes no step there. -/
theorem noStepOnceTheRunIsOver : Obligations.NoStepOnceTheRunIsOver := by
  intro s n hstop
  refine ⟨?_, hostSteps_of_stopped hstop n⟩
  rcases step_cases s with ⟨-, hfault⟩ | ⟨hr, -⟩ | ⟨hr, -⟩ | ⟨hr, -⟩
  · exact hfault
  all_goals exact absurd hr hstop

end Sys2Proof.Machine
end

section
/-! The loader and the host's reads: which bytes an image leaves in memory, which image is refused, and that both
operations keep the invariant (`60_exceptions.md` R266; `70_reset_and_hazards.md` R280, R283). -/

namespace Sys2Proof.Machine

/-! ## The loader (R283) -/

/-- Memory after one piece of an image is written. -/
def Memory.writePiece (m : Memory) (g : Segment) : Memory := m.setBytes g.base g.bytes

/-- The piece gives a byte for this address. -/
abbrev Segment.holds (a : Nat) (g : Segment) : Bool := decide (g.base ≤ a ∧ a < g.base + g.bytes.length)

theorem Memory.byteAt_writePiece (m : Memory) (g : Segment) (a : Nat) :
    (m.writePiece g).byteAt a = if g.holds a = true then g.bytes.getD (a - g.base) 0#8 else m.byteAt a := by
  simp only [Segment.holds, decide_eq_true_eq]
  exact Memory.byteAt_setBytes m g.base a g.bytes

/-- After the pieces are written in the order of the list, the last one that gives a byte for an address decides what it
reads as. -/
theorem Memory.byteAt_writePieces (m : Memory) (image : List Segment) (a : Nat) :
    (image.foldl Memory.writePiece m).byteAt a =
      (image.reverse.find? (Segment.holds a)).elim (m.byteAt a) (fun g => g.bytes.getD (a - g.base) 0#8) := by
  induction image using List.reverseRecOn with
  | nil => rfl
  | append_singleton image g ih =>
    rw [List.foldl_concat, Memory.byteAt_writePiece, List.reverse_concat]
    by_cases hg : g.holds a = true
    · rw [if_pos hg, List.find?_cons_of_pos hg]
      rfl
    · rw [if_neg hg, List.find?_cons_of_neg hg, ih]

/-- An image whose pieces all fit is written to memory, and nothing else changes. -/
theorem loadImage_of_fits {image : List Segment} {s : State} (h : ∀ g ∈ image, g.fits s.cfg = true) :
    loadImage image s = .next { s with mem := image.foldl Memory.writePiece s.mem } := by
  induction image generalizing s with
  | nil => rfl
  | cons g rest ih =>
    obtain ⟨hg, hrest⟩ := List.forall_mem_cons.mp h
    rw [loadImage_cons_fits rest hg]
    exact ih hrest

/-- An image is refused by its first piece that does not fit. -/
theorem loadImage_refused {before : List Segment} {g : Segment} {s : State} (after : List Segment)
    (hbefore : ∀ q ∈ before, q.fits s.cfg = true) (hg : ¬ g.fits s.cfg = true) :
    loadImage (before ++ g :: after) s = .refused (.imageOutsidePmem g.base g.bytes.length) := by
  induction before generalizing s with
  | nil => exact loadImage_cons_refused after hg
  | cons q before ih =>
    obtain ⟨hq, hrest⟩ := List.forall_mem_cons.mp hbefore
    rw [List.cons_append, loadImage_cons_fits _ hq]
    exact ih hrest hg

/-- The loader changes nothing but the memory. -/
theorem loadImage_changes_only_mem {image : List Segment} {s t : State} (h : loadImage image s = .next t) :
    t = { s with mem := t.mem } := by
  induction image generalizing s with
  | nil =>
    obtain rfl := Host.Outcome.next.inj h
    rfl
  | cons g rest ih =>
    by_cases hg : g.fits s.cfg = true
    · rw [loadImage_cons_fits rest hg] at h
      exact (ih h :)
    · rw [loadImage_cons_refused rest hg] at h
      cases h

/-- Settles O54: `Segment.fits` is the premise of both clauses, and the memory starts with no byte written. -/
theorem resetLoadsTheImage : Obligations.ResetLoadsTheImage := by
  intro c image inPmem
  have hfits (g : Segment) : g.fits c = true ↔ inPmem g := Segment.fits_iff g c
  refine ⟨fun hin => ?_, ?_⟩
  · refine ⟨_, loadImage_of_fits fun g hg => (hfits g).mpr (hin g hg), fun a => ?_, rfl⟩
    refine (Memory.byteAt_writePieces [] image a).trans ?_
    cases image.reverse.find? (Segment.holds a) <;> rfl
  · rintro before after g rfl hbefore hg
    exact loadImage_refused after (fun q hq => (hfits q).mpr (hbefore q hq)) fun h => hg ((hfits g).mp h)

/-! ## The invariant (R266, R283) -/

theorem loadImage_keeps_inv {image : List Segment} {s t : State} (hs : s.Inv) (h : loadImage image s = .next t) :
    t.Inv := by
  obtain ⟨hwf, hin, -⟩ := loadImage_keeps_memory h hs.memWf hs.memWithin
  rw [loadImage_changes_only_mem h] at hin ⊢
  exact ⟨hs.cfgWf, hs.zeroReg, hwf, hin, hs.runPc⟩

/-- A host read leaves the state alone, counts a device read, or aborts at the current pc. -/
theorem hostRead_keeps_inv {s : State} (hs : s.Inv) (a : Word) : (hostRead a s).2.Inv := by
  rcases access_cases s a 4 with hp | hd | ho
  · rw [hostRead_of_memRead (memRead_pmem hp)]
    exact hs
  · rw [hostRead_of_memRead (memRead_device hd)]
    exact ⟨hs.cfgWf, hs.zeroReg, hs.memWf, hs.memWithin, hs.runPc⟩
  · rw [hostRead_outOfBounds ho]
    exact hs.abort (beq_self_eq_true s.pc)

/-- Settles O14: reset meets the invariant, and the loader and a host read keep it. -/
theorem hostOperationsKeepInvariant : Obligations.HostOperationsKeepInvariant :=
  ⟨fun _ _ _ hc h => loadImage_keeps_inv (resetWith_inv hc) h, fun _ a hs => hostRead_keeps_inv hs a⟩

end Sys2Proof.Machine
end

section
/-! When a CSR write is seen, and what the value of `mstatus` affects (`10_state.md` R39; `70_reset_and_hazards.md`
R282, R289). -/

namespace Sys2Proof.Machine

/-! ## A CSR write is seen by the next instruction (R289) -/

theorem Csrs.read_write_same (c : Csrs) {a : CsrAddr} (ha : a ∈ [0x300#12, 0x305#12, 0x341#12, 0x342#12])
    (v : Word) : (c.write a v).read a = v := by
  rw [Csrs.write_eq, Csrs.read_eq]
  simp only [List.mem_cons, List.not_mem_nil, or_false] at ha
  rcases ha with rfl | rfl | rfl | rfl <;> rfl

/-- A CSRRS right after a write of a recognised CSR reads the written value, whichever instruction wrote it. -/
theorem csrrs_after_setCsr (s : State) {a : CsrAddr} (ha : a ∈ [0x300#12, 0x305#12, 0x341#12, 0x342#12])
    {rd : RegIdx} (hrd : rd ≠ 0#5) (v : Word) :
    ∃ t u, (s.setCsr a v).result 0#5 (s.csr a) = .next t ∧ exec (.csrrs rd a 0#5) t = .next u ∧ u.reg rd = v := by
  obtain ⟨t, ht, -, -, hcsrs, -⟩ := result_spec (s.setCsr a v) 0#5 (s.csr a)
  obtain ⟨u, hu, hwrites, -⟩ := result_spec (t.setCsr a (t.csr a ||| t.reg 0#5)) rd (t.csr a)
  have hread : t.csr a = v := by rw [State.csr, hcsrs, State.setCsr_csrs, Csrs.read_write_same _ ha]
  exact ⟨t, u, ht, hu, (hwrites.reg_dest hrd).trans hread⟩

/-- Settles O52: a read after either CSR instruction is `csrrs_after_setCsr`; ECALL goes to the written `mtvec` and MRET
past the written `mepc`. -/
theorem csrWritesTakeEffectAtOnce : Obligations.CsrWritesTakeEffectAtOnce := by
  intro rd rs1 s
  refine ⟨fun hrd a ha => ⟨csrrs_after_setCsr s ha hrd _, csrrs_after_setCsr s ha hrd _⟩, fun href => ?_, ?_⟩
  · obtain ⟨t, ht, -, -, hmtvec, -, -, -, -, -, hcfg, -⟩ := setCsr_result_spec s 0#5 0x305#12 (s.reg rs1)
    have hhandler : t.cfg.trapHandler = .reference := hcfg ▸ href
    obtain ⟨u, hu, hanswer, -⟩ := ecall_spec (takeTrap_reference hhandler _ _)
    have hpc : u.pc = t.csrs.mtvec := congrArg Prod.snd hanswer
    exact ⟨t, u, ht, hu, hpc.trans hmtvec⟩
  · obtain ⟨t, ht, -, -, -, hmepc, -⟩ := setCsr_result_spec s 0#5 0x341#12 (s.reg rs1)
    obtain ⟨u, hu, -, hpc, -⟩ := finish_spec t t.trapReturn
    exact ⟨t, u, ht, hu, hpc.trans (congrArg (· + 4#32) hmepc)⟩

/-! ## Two runs that differ in `mstatus` (R282) -/

/-- The state with another `mstatus`. -/
abbrev State.withMstatus (s : State) (v : Word) : State := { s with csrs := { s.csrs with mstatus := v } }

/-- Two outcomes are the same next state, but that the second has `mstatus` at `v`. -/
def SameButMstatus (v : Word) (out out' : Out) : Prop := ∃ t, out = .next t ∧ out' = .next (t.withMstatus v)

section
variable (v : Word) (s : State)

theorem finish_sameButMstatus (d : Word) : SameButMstatus v (s.finish d) ((s.withMstatus v).finish d) :=
  ⟨_, rfl, rfl⟩

theorem result_sameButMstatus (rd : RegIdx) (w : Word) :
    SameButMstatus v (s.result rd w) ((s.withMstatus v).result rd w) := ⟨_, rfl, rfl⟩

theorem fatal_sameButMstatus (why : Abort) : SameButMstatus v (s.fatal why) ((s.withMstatus v).fatal why) :=
  ⟨_, rfl, rfl⟩

theorem jump_sameButMstatus (rd : RegIdx) (target : Word) (trace : List Event) :
    SameButMstatus v (s.jump rd target trace) ((s.withMstatus v).jump rd target trace) := ⟨_, rfl, rfl⟩

theorem load_sameButMstatus (rd rs1 : RegIdx) (imm : BitVec 12) (n : Nat) (ext : Word → Word) :
    SameButMstatus v (s.load rd rs1 imm n ext) ((s.withMstatus v).load rd rs1 imm n ext) := by
  rcases access_cases s (s.ea rs1 imm) n with hp | hd | ho
  · rw [load_pmem hp, load_pmem (s := s.withMstatus v) hp]
    exact result_sameButMstatus v s rd _
  · rw [load_device hd, load_device (s := s.withMstatus v) hd]
    exact result_sameButMstatus v { s with draws := s.draws + 1 } rd _
  · rw [load_outOfBounds ho, load_outOfBounds (s := s.withMstatus v) ho]
    exact fatal_sameButMstatus v s _

theorem store_sameButMstatus (rs2 rs1 : RegIdx) (imm : BitVec 12) (n : Nat) :
    SameButMstatus v (s.store rs2 rs1 imm n) ((s.withMstatus v).store rs2 rs1 imm n) := by
  rcases access_cases s (s.ea rs1 imm) n with hp | hd | ho
  · rw [store_pmem hp, store_pmem (s := s.withMstatus v) hp]
    exact finish_sameButMstatus v { s with mem := s.mem.write (s.ea rs1 imm).toNat n (s.reg rs2) } _
  · rw [store_device hd, store_device (s := s.withMstatus v) hd]
    exact finish_sameButMstatus v (s.emit _) _
  · rw [store_outOfBounds ho, store_outOfBounds (s := s.withMstatus v) ho]
    exact fatal_sameButMstatus v s _

theorem divide_sameButMstatus (rd : RegIdx) (corner : Bool) (w : Word) :
    SameButMstatus v (s.divide rd corner w) ((s.withMstatus v).divide rd corner w) := by
  by_cases hfault : s.cfg.divCorner = .fault ∧ corner = true
  · rw [State.divide, State.divide, if_pos hfault, if_pos hfault]
    exact fatal_sameButMstatus v s _
  · rw [State.divide, State.divide, if_neg hfault, if_neg hfault]
    exact result_sameButMstatus v s rd w

variable {s}

/-- The reference handler writes `mepc` and `mcause`, and reads `mtvec`; an external one sees every CSR. -/
theorem ecall_sameButMstatus (href : s.cfg.trapHandler = .reference) :
    SameButMstatus v (execEcall s) (execEcall (s.withMstatus v)) := by
  rw [execEcall, execEcall, takeTrap_reference href, takeTrap_reference (s := s.withMstatus v) href]
  exact ⟨_, rfl, rfl⟩

section
variable {a : CsrAddr} (ha : a ≠ 0x300#12)
include ha

theorem csr_withMstatus : (s.withMstatus v).csr a = s.csr a := by
  rw [State.csr, State.csr, Csrs.read_eq, Csrs.read_eq, if_neg ha, if_neg ha]

theorem setCsr_withMstatus (w : Word) : (s.withMstatus v).setCsr a w = (s.setCsr a w).withMstatus v := by
  simp only [State.setCsr, State.withMstatus, Csrs.write_eq, if_neg ha]

/-- The shared end of the CSR instructions. -/
theorem setCsr_result_sameButMstatus {w w' : Word} (hw : w' = w) (rd : RegIdx) :
    SameButMstatus v ((s.setCsr a w).result rd (s.csr a))
      (((s.withMstatus v).setCsr a w').result rd ((s.withMstatus v).csr a)) := by
  rw [hw, csr_withMstatus v ha, setCsr_withMstatus v ha]
  exact result_sameButMstatus v (s.setCsr a w) rd _

end

/-- No instruction reads or writes `mstatus` but a CSR instruction that addresses it. -/
theorem exec_sameButMstatus (href : s.cfg.trapHandler = .reference) (i : Instr) (hi : addressesMstatus i = false) :
    SameButMstatus v (exec i s) (exec i (s.withMstatus v)) :=
  match i with
  | .lui .. | .auipc .. => result_sameButMstatus v s _ _
  | .addi .. | .slti .. | .sltiu .. | .xori .. | .ori .. | .andi .. => result_sameButMstatus v s _ _
  | .slli .. | .srli .. | .srai .. => result_sameButMstatus v s _ _
  | .add .. | .sub .. | .sll .. | .slt .. | .sltu .. => result_sameButMstatus v s _ _
  | .xor .. | .srl .. | .sra .. | .or .. | .and .. => result_sameButMstatus v s _ _
  | .mul .. | .mulh .. | .mulhsu .. | .mulhu .. => result_sameButMstatus v s _ _
  | .div .. | .divu .. | .rem .. | .remu .. => divide_sameButMstatus v s _ _ _
  | .jal .. | .jalr .. => jump_sameButMstatus v s _ _ _
  | .beq .. | .bne .. | .blt .. | .bge .. | .bltu .. | .bgeu .. => finish_sameButMstatus v s _
  | .lb .. | .lh .. | .lw .. | .lbu .. | .lhu .. => load_sameButMstatus v s _ _ _ _ _
  | .sb .. | .sh .. | .sw .. => store_sameButMstatus v s _ _ _ _
  | .ecall => ecall_sameButMstatus v href
  | .ebreak => finish_sameButMstatus v { s with run := .ended s.pc (s.reg s.cfg.haltRetReg) } _
  | .mret => finish_sameButMstatus v s _
  | .csrrw rd _ _ => setCsr_result_sameButMstatus v (beq_eq_false_iff_ne.mp hi) rfl rd
  | .csrrs rd a rs1 =>
    have ha : a ≠ 0x300#12 := beq_eq_false_iff_ne.mp hi
    setCsr_result_sameButMstatus v ha (congrArg (· ||| s.reg rs1) (csr_withMstatus v ha)) rd
  | .inv _ => fatal_sameButMstatus v s _

end

/-- Settles O22: `exec_sameButMstatus`, read at the state that `exec` answers. -/
theorem mstatusAffectsNothingElse : Obligations.MstatusAffectsNothingElse := by
  intro i s t v href hi h
  obtain ⟨t', ht', hother⟩ := exec_sameButMstatus v href i hi
  obtain rfl := Host.Outcome.next.inj (h.symm.trans ht')
  exact hother

end Sys2Proof.Machine
end
